-- ==== Sys2Proof/Word.lean ====
section
/-! DEFINITION. The widths of 00_scope.md R9 and R10: the bit vectors the engine's registers and buses carry. -/

namespace Sys2Proof

/-- A buffer byte (20_memory.md R62). -/
abbrev Byte := BitVec 8

/-- A key-block word KB[w] (10_state.md R40). -/
abbrev Half := BitVec 16

/-- A port register, a half-block or a subkey word (00_scope.md R9). -/
abbrev Word := BitVec 32

/-- A byte offset of the port space (20_memory.md R60). -/
abbrev Offset := BitVec 32

end Sys2Proof
end

