-- ==== Sys2Proof/Syntax.lean ====
section
/-! DEFINITION. The seven commands of 30_encoding.md R82, with the operand R81 gives each. -/

namespace Sys2Proof

/-- One constructor per row of spec/opcode_table.json. An operand is the number the assembler writes (R89);
`Instr.wellFormed` says which numbers the 24-bit ARG field holds. -/
inductive Instr where
  /-- CONSTRUCT level (40_instance.md R100); the level is signed. -/
  | construct (level : Int)
  /-- SETKEY n, the key length in bytes (43_key_schedule.md R175). -/
  | setkey (n : Nat)
  /-- CLEAR (43_key_schedule.md R180). -/
  | clear
  /-- ENCRYPT n, the block length in bytes (45_cipher_engine.md R215). -/
  | encrypt (n : Nat)
  /-- DECRYPT n, the block length in bytes (45_cipher_engine.md R220). -/
  | decrypt (n : Nat)
  /-- KEYSIZE (45_cipher_engine.md R230). -/
  | keysize
  /-- BLOCKSIZE (45_cipher_engine.md R233). -/
  | blocksize
  deriving DecidableEq, Repr

end Sys2Proof
end

