-- ==== Sys2Proof/WellFormed.lean ====
section
/-! DEFINITION. The operand ranges of 30_encoding.md R81, which an assembler enforces (R89). -/

namespace Sys2Proof

/-- The range of a signed 24-bit ARG: −2^23 … 2^23 − 1. -/
def levelInRange (level : Int) : Bool := decide (-8388608 ≤ level ∧ level ≤ 8388607)

/-- The range of an unsigned 24-bit ARG: 0 … 2^24 − 1. -/
def lengthInRange (n : Nat) : Bool := decide (n ≤ 16777215)

/-- The instruction has an encoding: its operand lies in the range R81 gives it. -/
def Instr.wellFormed : Instr → Bool
  | .construct level => levelInRange level
  | .setkey n => lengthInRange n
  | .clear => true
  | .encrypt n => lengthInRange n
  | .decrypt n => lengthInRange n
  | .keysize => true
  | .blocksize => true

end Sys2Proof
end

