-- ==== Sys2Proof/Decode.lean ====
section
/-! DEFINITION. Decoding and encoding of command words (30_encoding.md R80–R87, R90). -/

namespace Sys2Proof

/-- Why a word is no command. Each makes the command fail with IllegalCommand (60_exceptions.md R244; log 18). -/
inductive Illegal where
  /-- RSV, bits 7:4, is not 0 (R84). -/
  | reservedField
  /-- OP is 0x0 or 0x8 to 0xF (R83). -/
  | reservedOp
  /-- ARG is not 0 on CLEAR, KEYSIZE or BLOCKSIZE (R85). -/
  | unusedArg
  deriving DecidableEq, Repr

/-- OP, bits 3:0 (R80). -/
def opField (w : Word) : BitVec 4 := w.extractLsb' 0 4

/-- RSV, bits 7:4 (R80). -/
def rsvField (w : Word) : BitVec 4 := w.extractLsb' 4 4

/-- ARG, bits 31:8 (R80). -/
def argField (w : Word) : BitVec 24 := w.extractLsb' 8 24

/-- The level of a CONSTRUCT word: sext_32(ARG) as a signed number (R81). -/
def levelOperand (arg : BitVec 24) : Int := (arg.signExtend 32).toInt

/-- The length of a SETKEY, ENCRYPT or DECRYPT word: zext_32(ARG) (R81). -/
def lengthOperand (arg : BitVec 24) : Nat := (arg.setWidth 32).toNat

/-- A command without operand: its ARG must be 0 (R85). -/
def noOperand (i : Instr) (arg : BitVec 24) : Except Illegal Instr :=
  if arg = 0 then .ok i else .error .unusedArg

/-- Decode, total on every word (R87). -/
def decode (w : Word) : Except Illegal Instr :=
  if rsvField w ≠ 0 then .error .reservedField
  else if opField w = 0x1 then .ok (.construct (levelOperand (argField w)))
  else if opField w = 0x2 then .ok (.setkey (lengthOperand (argField w)))
  else if opField w = 0x3 then noOperand .clear (argField w)
  else if opField w = 0x4 then .ok (.encrypt (lengthOperand (argField w)))
  else if opField w = 0x5 then .ok (.decrypt (lengthOperand (argField w)))
  else if opField w = 0x6 then noOperand .keysize (argField w)
  else if opField w = 0x7 then noOperand .blocksize (argField w)
  else .error .reservedOp

/-- The instruction of a word, if it has one. -/
def decodeInstr (w : Word) : Option Instr :=
  match decode w with
  | .ok i => some i
  | .error _ => none

/-- OP of each command (the map of R82). -/
def Instr.op : Instr → BitVec 4
  | .construct _ => 0x1
  | .setkey _ => 0x2
  | .clear => 0x3
  | .encrypt _ => 0x4
  | .decrypt _ => 0x5
  | .keysize => 0x6
  | .blocksize => 0x7

/-- `operand[23:0]` of each command, 0 for the commands without one (R90). -/
def Instr.arg : Instr → BitVec 24
  | .construct level => BitVec.ofInt 24 level
  | .setkey n => BitVec.ofNat 24 n
  | .clear => 0
  | .encrypt n => BitVec.ofNat 24 n
  | .decrypt n => BitVec.ofNat 24 n
  | .keysize => 0
  | .blocksize => 0

/-- Encode(command, operand) = {operand[23:0], 0b0000, OP} (R90). -/
def encode (i : Instr) : Word := i.arg ++ (0 : BitVec 4) ++ i.op

/-- The command word whose bits, numbered as spec/opcode_table.json numbers them, are the low `nbits` bits of `w`;
every command is one 32-bit word, so no byte order enters (20_memory.md R67, log 20). -/
def tableWord (nbits w : Nat) : Word := BitVec.ofNat 32 (w % 2 ^ nbits)

/-- The decoder on a word of the opcode table; a number that needs more than 32 bits is no command word (R80). -/
def decodeTableWord (nbits w : Nat) : Option Instr :=
  if w % 2 ^ nbits < 2 ^ 32 then decodeInstr (tableWord nbits w) else none

end Sys2Proof
end

