-- ==== Sys2Proof/Config.lean ====
section
/-! DEFINITION. The parameters a part fixes (00_scope.md §3). The spec's constant tables stand in Machine/Tables.lean. -/

namespace Sys2Proof

/-- The open parameter of 00_scope.md R6. The state carries it, so that every statement holds for every part (log 1). -/
structure Part where
  /-- LEVEL_MAX, the largest level CONSTRUCT accepts. -/
  levelMax : Nat
  deriving DecidableEq, Repr

/-- The bounds R6 sets on LEVEL_MAX. -/
abbrev Part.wf (p : Part) : Prop := 1 ≤ p.levelMax ∧ p.levelMax ≤ 2 ^ 23 - 1

/-- ROUNDS_MAX, the number of entries of the key-schedule file (R7). -/
def Part.roundsMax (p : Part) : Nat := 16 * p.levelMax

/-- KEYBUF_BYTES, the size of the key buffer (R7). -/
def Part.keybufBytes (p : Part) : Nat := 8 * p.levelMax

/-- The part that `State.reset` is the reset state of: LEVEL_MAX = 2, as program P4 of 95_test_vectors.md
assumes. DESIGN CHOICE, unsafe, log 1. -/
def Part.reference : Part := ⟨2⟩

end Sys2Proof
end

