-- ==== Sys2Proof/Machine/Cells.lean ====
section
/-! DEFINITION. Register arrays whose extent LEVEL_MAX leaves open (KEYBUF and KS), as lists in one canonical form
(log 10): indices strictly rising, and no entry equal to the value an unlisted index reads as. -/

namespace Sys2Proof.Machine

/-- The value at an index; an unlisted index reads as `z`. -/
def Cells.read {α : Type} (z : α) : List (Nat × α) → Nat → α
  | [], _ => z
  | (k, v) :: rest, i => if k = i then v else Cells.read z rest i

/-- Write a value at an index, keeping the canonical form: writing `z` removes the entry. -/
def Cells.write {α : Type} [DecidableEq α] (z : α) : List (Nat × α) → Nat → α → List (Nat × α)
  | [], i, v => if v = z then [] else [(i, v)]
  | (k, u) :: rest, i, v =>
    if i < k then (if v = z then (k, u) :: rest else (i, v) :: (k, u) :: rest)
    else if i = k then (if v = z then rest else (i, v) :: rest)
    else (k, u) :: Cells.write z rest i v

/-- The canonical form. -/
abbrev Cells.wf {α : Type} (z : α) (c : List (Nat × α)) : Prop :=
  c.Pairwise (fun a b => a.1 < b.1) ∧ ∀ x ∈ c, x.2 ≠ z

/-- A byte array: the key buffer. -/
abbrev Memory := List Host.Cell

/-- One byte of the array; a byte nothing has written holds its reset value 0 (10_state.md R34). -/
def Memory.read (m : Memory) (i : Nat) : Byte := Cells.read 0 m i

/-- Store one byte. -/
def Memory.write (m : Memory) (i : Nat) (b : Byte) : Memory := Cells.write 0 m i b

/-- The byte array is in canonical form. -/
abbrev Memory.wf (m : Memory) : Prop := Cells.wf (0 : Byte) m

end Sys2Proof.Machine
end

