-- ==== Sys2Proof/Machine/State.lean ====
section
/-! DEFINITION. The state of 10_state.md R20 as plain data, the host's side of the port (30_encoding.md R90), the
reasons a step can stop, and the state after reset (70_reset_and_hazards.md R270). -/

namespace Sys2Proof.Machine

/-- The fields of STATUS (10_state.md R24). Bits 31:8 are hardwired 0 and have no storage (R30). -/
structure Status where
  /-- ERR, bits 3:0: the error code of the last command (R25). -/
  err : BitVec 4
  /-- CFG, bit 4: an instance is configured (R26). -/
  cfg : Bool
  /-- THIN, bit 5: the instance is the thin variant (R27). -/
  thin : Bool
  /-- EANY, bit 6: a command has failed since reset (R28). -/
  eany : Bool
  /-- BUSY, bit 7: a command executes (R29). -/
  busy : Bool
  deriving DecidableEq, Repr

/-- One entry of the key-schedule file: three 32-bit words (10_state.md R37). -/
structure RoundKey where
  k0 : Word
  k1 : Word
  k2 : Word
  deriving DecidableEq, Repr

/-- The round key whose words are all 0: what reset, CONSTRUCT and CLEAR leave in every entry of KS. -/
def RoundKey.zero : RoundKey := ⟨0, 0, 0⟩

/-- The key-schedule file KS (10_state.md R37), by round index; an unlisted entry holds its reset value 0. -/
abbrev KeyFile := List (Nat × RoundKey)

/-- The key-block buffer KB[0..3] (10_state.md R40). -/
abbrev KeyBlock := Vector Half 4

/-- A block buffer: BLKIN or BLKOUT (10_state.md R35, R36). -/
abbrev Block := Vector Byte 8

/-- The error kinds of 60_exceptions.md R240. -/
inductive ErrCode where
  | invalidKeyLength
  | invalidBlockLength
  | noInstance
  | illegalCommand
  | invalidLevel
  deriving DecidableEq, Repr

/-- One thing the outside world does to the engine, between commands. -/
inductive HostOp where
  /-- MemRead(off, n): a host read of n bytes (00_scope.md R12). -/
  | memRead (off : Offset) (n : Nat)
  /-- MemWrite(off, n, v): a host write of n bytes (00_scope.md R12). A 1-byte write moves v[7:0] (log 13). -/
  | memWrite (off : Offset) (n : Nat) (v : Word)
  /-- WAIT: read STATUS until BUSY is 0 (30_encoding.md R90, log 4). -/
  | wait
  /-- The platform asserts and releases reset (70_reset_and_hazards.md R270, log 5). -/
  | reset
  deriving DecidableEq, Repr

/-- The value one host read returned. -/
inductive Reply where
  | byte (b : Byte)
  | word (w : Word)
  deriving DecidableEq, Repr

/-- The engine's state. `part`, `hostOps` and `replies` are the model's own fields (log 1, log 3); every other
field is an item of 10_state.md R20. CMD keeps no value (R23, log 17). -/
structure State where
  /-- LEVEL_MAX (00_scope.md R6); no step changes it. -/
  part : Part
  /-- STATUS (R24). -/
  status : Status
  /-- RESULT (R31). -/
  result : Word
  /-- SIZE (R32). -/
  size : Word
  /-- ROUNDS (R33). -/
  rounds : Word
  /-- KEYBUF (R34). -/
  keybuf : Memory
  /-- BLKIN (R35). -/
  blkin : Block
  /-- BLKOUT (R36). -/
  blkout : Block
  /-- KS (R37). -/
  ks : KeyFile
  /-- KB, scratch (R40). -/
  kb : KeyBlock
  /-- L, scratch (R41). -/
  l : Word
  /-- R, scratch (R41). -/
  r : Word
  /-- ROUNDIDX, scratch (R42). -/
  roundIdx : Nat
  /-- What the host will do, oldest first. -/
  hostOps : List HostOp
  /-- What the host's reads have returned, oldest first. -/
  replies : List Reply
  deriving DecidableEq, Repr

/-- Why the engine itself would stop: never. A failed command is a next state (60_exceptions.md R245, R248), so
there is no constructor, and no step can answer a fault (log 6). -/
inductive Fault where
  deriving DecidableEq, Repr

/-- Why a host operation has no meaning (93_implementation_defined.md: `refuse`). -/
inductive Refusal where
  /-- Raised by exec for an instruction without a meaning yet: none is left. Safe. -/
  | notModelled (mnemonic : String)
  /-- Raised by the port for an access of a wrong width or misaligned (20_memory.md R63). Safe: the spec gives such
  an access no meaning. -/
  | wrongAccess
  /-- Raised by the port for an access at a reserved offset (20_memory.md R64). Safe: the spec gives such an access
  no meaning. -/
  | reservedOffset
  /-- Raised by the port for a write to STATUS, RESULT, SIZE, ROUNDS or BLKOUT (20_memory.md R64). Safe: the spec
  gives such an access no meaning. -/
  | readOnly
  /-- Raised by the port while BUSY = 1 for any access but a STATUS read (70_reset_and_hazards.md R282). Unsafe on a
  part with latency whose host breaks the duty (93_implementation_defined.md, blind spot of I16; log 7). -/
  | hostDuty
  deriving DecidableEq, Repr

/-- STATUS after reset (10_state.md R25–R29). -/
def Status.reset : Status := ⟨0, false, false, false, false⟩

/-- The reset values of 70_reset_and_hazards.md R270 on a given part. KB, L, R and ROUNDIDX are unspecified there and
are 0 here (DESIGN CHOICE, log 8); nothing waits from the host and no read has returned (log 3). -/
def State.resetOf (p : Part) : State where
  part := p
  status := Status.reset
  result := 0
  size := 0
  rounds := 0
  keybuf := []
  blkin := Vector.replicate 8 0
  blkout := Vector.replicate 8 0
  ks := []
  kb := Vector.replicate 4 0
  l := 0
  r := 0
  roundIdx := 0
  hostOps := []
  replies := []

/-- The machine right after reset, on the reference part. -/
def State.reset : State := State.resetOf Part.reference

end Sys2Proof.Machine
end

