-- ==== Sys2Proof/Machine/KeySchedule.lean ====
section
/-! DEFINITION. The key-schedule expander's routines PackKB and BUILDBLOCK (43_key_schedule.md §1). -/

namespace Sys2Proof.Machine

/-- KS[i]. -/
def KeyFile.read (ks : KeyFile) (i : Nat) : RoundKey := Cells.read RoundKey.zero ks i

/-- KS[i] <- k. -/
def KeyFile.write (ks : KeyFile) (i : Nat) (k : RoundKey) : KeyFile := Cells.write RoundKey.zero ks i k

/-- The key-schedule file is in canonical form. -/
abbrev KeyFile.wf (ks : KeyFile) : Prop := Cells.wf RoundKey.zero ks

/-- KS[r][s], s ∈ 0..2. -/
def RoundKey.word (k : RoundKey) (s : Nat) : Word :=
  match s with
  | 0 => k.k0
  | 1 => k.k1
  | _ => k.k2

/-- KS[r][s] <- v. -/
def RoundKey.setWord (k : RoundKey) (s : Nat) (v : Word) : RoundKey :=
  match s with
  | 0 => { k with k0 := v }
  | 1 => { k with k1 := v }
  | _ => { k with k2 := v }

/-- {KEYBUF[pos], KEYBUF[pos + 1]}: the first byte is the high byte (43_key_schedule.md R165). -/
def keyHalf (keybuf : Memory) (pos : Nat) : Half := keybuf.read pos ++ keybuf.read (pos + 1)

/-- PackKB(off): KB[3 − j] <- {KEYBUF[off + 2j], KEYBUF[off + 2j + 1]} (R165). -/
def packKB (keybuf : Memory) (off : Nat) : KeyBlock :=
  #v[keyHalf keybuf (off + 6), keyHalf keybuf (off + 4), keyHalf keybuf (off + 2), keyHalf keybuf off]

/-- One step of a KB word: {~v[0], v[15:1]} (R170). -/
def kbStep (v : Half) : Half := BitVec.ofBool (!v.getLsbD 0) ++ v.extractLsb' 1 15

/-- The round key under construction and the key-block buffer it is read from. -/
structure Expansion where
  key : RoundKey
  kb : KeyBlock
  deriving DecidableEq, Repr

/-- The innermost body of BUILDBLOCK (R167): shift the low bit of KB[(kr + k) mod 4] into word `s`, then step that
KB word. -/
def extractBit (kr s k : Nat) (e : Expansion) : Expansion :=
  let w := Fin.ofNat 4 (kr + k)
  { key := e.key.setWord s ((e.key.word s <<< 1) ||| (BitVec.ofBool (e.kb[w].getLsbD 0)).setWidth 32)
    kb := e.kb.set w (kbStep e.kb[w]) }

/-- Pass j of a round (R167): the four KB words in the order kr, kr+1, kr+2, kr+3, into slot j mod 3. -/
def buildPass (kr j : Nat) (e : Expansion) : Expansion :=
  (List.range 4).foldl (fun e k => extractBit kr (j % 3) k e) e

/-- One round of BUILDBLOCK (R167): a zeroed round key and its 15 passes. -/
def buildRound (kr : Nat) (kb : KeyBlock) : Expansion :=
  (List.range 15).foldl (fun e j => buildPass kr j e) ⟨RoundKey.zero, kb⟩

/-- The key-schedule file and the key-block buffer, as BUILDBLOCK reads and writes them. -/
structure Schedule where
  ks : KeyFile
  kb : KeyBlock
  deriving DecidableEq, Repr

/-- Round offset r of BUILDBLOCK(n, rb) (R167). -/
def buildEntry (n rb r : Nat) (sch : Schedule) : Schedule :=
  let e := buildRound (keyrot (Fin.ofNat 16 (rb + r))).val sch.kb
  { ks := sch.ks.write (n + r) e.key, kb := e.kb }

/-- BUILDBLOCK(n, rb): eight round keys KS[n..n+7]; KB is left rotated (R166, R167). -/
def buildBlock (n rb : Nat) (sch : Schedule) : Schedule :=
  (List.range 8).foldl (fun sch r => buildEntry n rb r sch) sch

/-- Key block i in the general case (R177): packed once, a forward BUILDBLOCK, then a mirrored one on the same KB. -/
def expandBlock (keybuf : Memory) (rounds i : Nat) (sch : Schedule) : Schedule :=
  buildBlock (rounds - 8 - 8 * i) 8 (buildBlock (8 * i) 0 { sch with kb := packKB keybuf (8 * i) })

/-- The thin case (R176): one forward BUILDBLOCK. -/
def expandThin (keybuf : Memory) (sch : Schedule) : Schedule :=
  buildBlock 0 0 { sch with kb := packKB keybuf 0 }

/-- The general case (R177): every key block in increasing order. -/
def expandGeneral (keybuf : Memory) (size rounds : Nat) (sch : Schedule) : Schedule :=
  (List.range size).foldl (fun sch i => expandBlock keybuf rounds i sch) sch

end Sys2Proof.Machine
end

