-- ==== Sys2Proof/Machine/GfUnit.lean ====
section
/-! DEFINITION. The GF(2^8) arithmetic unit (41_gf_arith.md). -/

namespace Sys2Proof.Machine

/-- `x << 1`, folded back under 256 by XOR with the modulus (41_gf_arith.md R120): one step of the multiplicand. -/
def gfTimesX (m x : BitVec 9) : BitVec 9 :=
  if (x <<< 1) ≥ 256#9 then (x <<< 1) ^^^ m else x <<< 1

/-- The loop of GF_MULT (R120). The first argument bounds the iterations; 8 are enough for an 8-bit `y` (R123). -/
def gfMultLoop (m : BitVec 9) : Nat → Byte → BitVec 9 → Byte → Byte
  | 0, res, _, _ => res
  | fuel + 1, res, x, y =>
    if y = 0 then res
    else gfMultLoop m fuel (if y.getLsbD 0 then res ^^^ x.setWidth 8 else res) (gfTimesX m x) (y >>> 1)

/-- GF_MULT(a, b, m) (R120). The engine passes only moduli with 256 ≤ m (R124, log 16). -/
def gfMult (a b : Byte) (m : BitVec 9) : Byte := gfMultLoop m 8 0 (a.setWidth 9) b

/-- GF_EXP7(b, m), the four-call chain (R125; 90_conflicts.md C1). -/
def gfExp7 (b : Byte) (m : BitVec 9) : Byte :=
  if b = 0 then 0
  else
    let x2 := gfMult b b m
    let x3 := gfMult b x2 m
    let x6 := gfMult x3 x3 m
    gfMult b x6 m

end Sys2Proof.Machine
end

