-- ==== Sys2Proof/Machine/SpBox.lean ====
section
/-! DEFINITION. The scatter step and the substitution-permutation tables (42_spbox.md). -/

namespace Sys2Proof.Machine

/-- PERM32(x): OR of PBOX[k] over the set bits k of x (42_spbox.md R144). -/
def perm32 (x : Word) : Word :=
  (List.finRange 32).foldl (fun (res : Word) (k : Fin 32) => if x.getLsbD k.val then res ||| pbox k else res) 0

/-- col = i[8:1] (R145). -/
def spCol (i : BitVec 10) : Byte := i.extractLsb' 1 8

/-- row = {i[9], i[0]} (R145). -/
def spRow (i : BitVec 10) : Fin 4 := (i.extractLsb' 9 1 ++ i.extractLsb' 0 1 : BitVec 2).toFin

/-- S_{p,row}(col) = GF_EXP7(col ^ SXOR[p][row], SMOD[p][row]) (41_gf_arith.md R128). -/
def sMap (p row : Fin 4) (col : Byte) : Byte := gfExp7 (col ^^^ sxor p row) (smod p row)

/-- SP[p][i] (R146), the contents of the ROM (R147). -/
def sp (p : Fin 4) (i : BitVec 10) : Word :=
  perm32 ((sMap p (spRow i) (spCol i)).setWidth 32 <<< (24 - 8 * p.val))

end Sys2Proof.Machine
end

