-- ==== Sys2Proof/Machine/RoundFunction.lean ====
section
/-! DEFINITION. The round-function datapath F (44_round_function.md). -/

namespace Sys2Proof.Machine

/-- tl = {p[1:0], p[31:24], p[25:16]} (44_round_function.md R191). -/
def expandLeft (p : Word) : BitVec 20 := p.extractLsb' 0 2 ++ p.extractLsb' 24 8 ++ p.extractLsb' 16 10

/-- tr = {p[17:8], p[9:0]} (R192). -/
def expandRight (p : Word) : BitVec 20 := p.extractLsb' 8 10 ++ p.extractLsb' 0 10

/-- The low 20 bits of a subkey word, the bits the datapath takes (R190). -/
def subkey20 (k : Word) : BitVec 20 := k.extractLsb' 0 20

/-- The keyed conditional swap (R194): (al, ar) from (tl, tr) under K2. -/
def saltSwap (k2 tl tr : BitVec 20) : BitVec 20 × BitVec 20 :=
  let al := k2 &&& (tl ^^^ tr)
  (al ^^^ tl, al ^^^ tr)

/-- The four lookups combined by OR (R195), indexed by 10-bit slices (R196). -/
def spLookup (al ar : BitVec 20) : Word :=
  sp 0 (al.extractLsb' 10 10) ||| sp 1 (al.extractLsb' 0 10) |||
    sp 2 (ar.extractLsb' 10 10) ||| sp 3 (ar.extractLsb' 0 10)

/-- F(p, K) (R190). -/
def roundF (p : Word) (k : RoundKey) : Word :=
  let swapped := saltSwap (subkey20 k.k2) (expandLeft p) (expandRight p)
  spLookup (swapped.1 ^^^ subkey20 k.k0) (swapped.2 ^^^ subkey20 k.k1)

end Sys2Proof.Machine
end

