-- ==== Sys2Proof/Machine/Feistel.lean ====
section
/-! DEFINITION. The Feistel loops (45_cipher_engine.md §1) and the block byte order (20_memory.md R68, R69). -/

namespace Sys2Proof.Machine

/-- The two half-blocks L and R (10_state.md R41). -/
structure Halves where
  l : Word
  r : Word
  deriving DecidableEq, Repr

/-- LoadBlock (20_memory.md R68): most-significant byte first in each half. -/
def loadBlock (b : Block) : Halves where
  l := b[0] ++ b[1] ++ b[2] ++ b[3]
  r := b[4] ++ b[5] ++ b[6] ++ b[7]

/-- v[31−8i : 24−8i]. -/
def byteOf (v : Word) (i : Nat) : Byte := v.extractLsb' (24 - 8 * i) 8

/-- StoreBlock (20_memory.md R69): R in bytes 0–3, L in bytes 4–7. -/
def storeBlock (h : Halves) : Block :=
  #v[byteOf h.r 0, byteOf h.r 1, byteOf h.r 2, byteOf h.r 3,
     byteOf h.l 0, byteOf h.l 1, byteOf h.l 2, byteOf h.l 3]

/-- One pair of rounds: L ^= F(R, first key), then R ^= F(L, second key). -/
def feistelPair (first second : RoundKey) (h : Halves) : Halves :=
  let l := h.l ^^^ roundF h.r first
  { l := l, r := h.r ^^^ roundF l second }

/-- EncryptRounds (45_cipher_engine.md R210): i = 0, 2, …, ROUNDS−2; ROUNDS is even in every reachable state
(log 12). -/
def encryptRounds (ks : KeyFile) (rounds : Nat) (h : Halves) : Halves :=
  (List.range (rounds / 2)).foldl (fun h p => feistelPair (ks.read (2 * p)) (ks.read (2 * p + 1)) h) h

/-- DecryptRounds (R211): i = ROUNDS−1, ROUNDS−3, …, 1. -/
def decryptRounds (ks : KeyFile) (rounds : Nat) (h : Halves) : Halves :=
  (List.range (rounds / 2)).foldl
    (fun h p => feistelPair (ks.read (rounds - 1 - 2 * p)) (ks.read (rounds - 2 - 2 * p)) h) h

end Sys2Proof.Machine
end

