-- ==== Sys2Proof/Machine/Flags.lean ====
section
/-! DEFINITION. The STATUS register: its word, and what the end of a command writes in it (10_state.md R24–R30,
60_exceptions.md R240, R245, R246). -/

namespace Sys2Proof.Machine

/-- The codes of 60_exceptions.md R240; 6 to 15 are reserved. -/
def ErrCode.code : ErrCode → BitVec 4
  | .invalidKeyLength => 1
  | .invalidBlockLength => 2
  | .noInstance => 3
  | .illegalCommand => 4
  | .invalidLevel => 5

/-- STATUS as the host reads it (10_state.md R24): ERR in 3:0, CFG 4, THIN 5, EANY 6, BUSY 7, 0 above (R30). -/
def Status.word (st : Status) : Word :=
  (0 : BitVec 24) ++ BitVec.ofBool st.busy ++ BitVec.ofBool st.eany ++ BitVec.ofBool st.thin ++
    BitVec.ofBool st.cfg ++ st.err

/-- BUSY <- 1, the first write of Execute (30_encoding.md R88). -/
def Status.start (st : Status) : Status := { st with busy := true }

/-- A command ends without error (60_exceptions.md R246): ERR <- 0, BUSY <- 0. -/
def Status.finish (st : Status) : Status := { st with err := 0, busy := false }

/-- A command fails (60_exceptions.md R245): ERR <- e, EANY <- 1, BUSY <- 0. -/
def Status.fail (st : Status) (e : ErrCode) : Status := { st with err := e.code, eany := true, busy := false }

/-- What a successful CONSTRUCT writes (40_instance.md R100). -/
def Status.configure (st : Status) (thin : Bool) : Status := { st with cfg := true, thin := thin }

end Sys2Proof.Machine
end

