-- ==== Sys2Proof/Machine/Operands.lean ====
section
/-! DEFINITION. What each command's operand means and the operand checks (60_exceptions.md R247, third group). -/

namespace Sys2Proof.Machine

/-- What CONSTRUCT writes to SIZE, ROUNDS and THIN. -/
structure Geometry where
  size : Nat
  rounds : Nat
  thin : Bool
  deriving DecidableEq, Repr

/-- The instance a level selects: thin below 1 (40_instance.md R101), InvalidLevel above LEVEL_MAX (R103), otherwise
the level-n variant (R102). -/
def levelGeometry (p : Part) (level : Int) : Except ErrCode Geometry :=
  if level < 1 then .ok ⟨1, 8, true⟩
  else if level > p.levelMax then .error .invalidLevel
  else .ok ⟨level.toNat, 16 * level.toNat, false⟩

/-- SETKEY's length must be 8*SIZE (43_key_schedule.md R175). -/
def keyLengthOk (size : Word) (n : Nat) : Bool := n == 8 * size.toNat

/-- ENCRYPT's and DECRYPT's length must be 8 (45_cipher_engine.md R215, R220). -/
def blockLengthOk (n : Nat) : Bool := n == 8

end Sys2Proof.Machine
end

