-- ==== Sys2Proof/Machine/Ops.lean ====
section
/-! DEFINITION. The shared operations of the commands: starting and ending one, raising an error (the engine's one
form of exception), and the writes the commands share. -/

namespace Sys2Proof.Machine

/-- The result of one step. -/
abbrev Result := Host.Outcome State Fault Refusal

/-- Execute's first write (30_encoding.md R88): STATUS.BUSY <- 1. -/
def State.start (s : State) : State := { s with status := s.status.start }

/-- A command succeeds (60_exceptions.md R246). -/
def State.finish (s : State) : State := { s with status := s.status.finish }

/-- `raise e` (60_exceptions.md R245): ERR, EANY and BUSY are written and nothing else changes; no control transfer,
no saved state (R248), so there is no return from it. -/
def State.raise (e : ErrCode) (s : State) : State := { s with status := s.status.fail e }

/-- Execute for a decoded command (30_encoding.md R88): BUSY <- 1; the NoInstance check for a command that needs an
instance (60_exceptions.md R243, R247); the command's rule, which may raise before it writes any state; then the end
of the command. One atomic step (70_reset_and_hazards.md R280). -/
def runCommand (needsInstance : Bool) (rule : State → Except ErrCode State) (s : State) : Result :=
  if needsInstance && !s.start.status.cfg then .next (s.start.raise .noInstance)
  else
    match rule s.start with
    | .ok t => .next t.finish
    | .error e => .next (s.start.raise e)

/-- Execute for a word that Decode finds illegal (30_encoding.md R88, 60_exceptions.md R244). -/
def illegalCommand (s : State) : State := s.start.raise .illegalCommand

/-- KS[q] <- 0 for every q in 0..ROUNDS_MAX−1 (40_instance.md R104, 43_key_schedule.md R180). -/
def State.zeroSchedule (s : State) : State := { s with ks := [] }

/-- The registers CONSTRUCT writes for an instance (40_instance.md R100). -/
def State.configure (s : State) (g : Geometry) : State :=
  { s with size := BitVec.ofNat 32 g.size, rounds := BitVec.ofNat 32 g.rounds,
           status := s.status.configure g.thin }

/-- The schedule SETKEY makes, and the scratch it leaves: KB, and in the general case ROUNDIDX at the last key block
(43_key_schedule.md R175; log 9). -/
def State.expandKey (s : State) : State :=
  if s.status.thin then
    let sch := expandThin s.keybuf ⟨s.ks, s.kb⟩
    { s with ks := sch.ks, kb := sch.kb }
  else
    let sch := expandGeneral s.keybuf s.size.toNat s.rounds.toNat ⟨s.ks, s.kb⟩
    { s with ks := sch.ks, kb := sch.kb, roundIdx := s.size.toNat - 1 }

/-- StoreBlock into BLKOUT, with the half-blocks and the loop counter a command leaves in scratch (log 9). -/
def State.storeOutput (s : State) (h : Halves) (lastRound : Nat) : State :=
  { s with blkout := storeBlock h, l := h.l, r := h.r, roundIdx := lastRound }

/-- RESULT <- v. -/
def State.setResult (s : State) (v : Word) : State := { s with result := v }

end Sys2Proof.Machine
end

