-- ==== Sys2Proof/Machine/Cipher.lean ====
section
/-! DEFINITION. ENCRYPT and DECRYPT (45_cipher_engine.md §2). -/

namespace Sys2Proof.Machine

/-- The rule of ENCRYPT (R215): length check, LoadBlock, EncryptRounds, StoreBlock. -/
def encryptRule (n : Nat) (s : State) : Except ErrCode State :=
  if blockLengthOk n then
    .ok (s.storeOutput (encryptRounds s.ks s.rounds.toNat (loadBlock s.blkin)) (s.rounds.toNat - 2))
  else .error .invalidBlockLength

/-- ENCRYPT n. -/
def execEncrypt (n : Nat) (s : State) : Result := runCommand true (encryptRule n) s

/-- The rule of DECRYPT (R220): length check, LoadBlock, DecryptRounds, StoreBlock. -/
def decryptRule (n : Nat) (s : State) : Except ErrCode State :=
  if blockLengthOk n then
    .ok (s.storeOutput (decryptRounds s.ks s.rounds.toNat (loadBlock s.blkin)) 1)
  else .error .invalidBlockLength

/-- DECRYPT n. -/
def execDecrypt (n : Nat) (s : State) : Result := runCommand true (decryptRule n) s

end Sys2Proof.Machine
end

