-- ==== Sys2Proof/Machine/Instance.lean ====
section
/-! DEFINITION. CONSTRUCT (40_instance.md). -/

namespace Sys2Proof.Machine

/-- The rule of CONSTRUCT (R100): geometry, then SIZE, ROUNDS, THIN, CFG, then the zero schedule (R104). -/
def constructRule (level : Int) (s : State) : Except ErrCode State :=
  match levelGeometry s.part level with
  | .error e => .error e
  | .ok g => .ok (s.configure g).zeroSchedule

/-- CONSTRUCT level. It never needs an instance (60_exceptions.md R243). -/
def execConstruct (level : Int) (s : State) : Result := runCommand false (constructRule level) s

end Sys2Proof.Machine
end

