-- ==== Sys2Proof/Machine/KeyCommands.lean ====
section
/-! DEFINITION. SETKEY and CLEAR (43_key_schedule.md §2, §3). -/

namespace Sys2Proof.Machine

/-- The rule of SETKEY (R175): the length check, before any write, then the expansion. -/
def setkeyRule (n : Nat) (s : State) : Except ErrCode State :=
  if keyLengthOk s.size n then .ok s.expandKey else .error .invalidKeyLength

/-- SETKEY n. -/
def execSetkey (n : Nat) (s : State) : Result := runCommand true (setkeyRule n) s

/-- The rule of CLEAR (R180): only KS is zeroed (R182). -/
def clearRule (s : State) : Except ErrCode State := .ok s.zeroSchedule

/-- CLEAR. -/
def execClear (s : State) : Result := runCommand true clearRule s

end Sys2Proof.Machine
end

