-- ==== Sys2Proof/Machine/Queries.lean ====
section
/-! DEFINITION. KEYSIZE and BLOCKSIZE (45_cipher_engine.md §3). -/

namespace Sys2Proof.Machine

/-- The rule of KEYSIZE (R230): RESULT <- zext_32(8 * SIZE). -/
def keysizeRule (s : State) : Except ErrCode State :=
  .ok (s.setResult (BitVec.ofNat 32 (8 * s.size.toNat)))

/-- KEYSIZE. -/
def execKeysize (s : State) : Result := runCommand true keysizeRule s

/-- The rule of BLOCKSIZE (R233): RESULT <- 8. -/
def blocksizeRule (s : State) : Except ErrCode State := .ok (s.setResult 8)

/-- BLOCKSIZE. It needs no instance (R233). -/
def execBlocksize (s : State) : Result := runCommand false blocksizeRule s

end Sys2Proof.Machine
end

