-- ==== Sys2Proof/Machine/Dispatch.lean ====
section
/-! DEFINITION. One arm per command: the meaning of each row of the opcode table. -/

namespace Sys2Proof.Machine

def exec (i : Instr) (s : State) : Host.Outcome State Fault Refusal :=
  match i with
  | .construct level => Sys2Proof.Machine.execConstruct level s
  | .setkey n => Sys2Proof.Machine.execSetkey n s
  | .clear => Sys2Proof.Machine.execClear s
  | .encrypt n => Sys2Proof.Machine.execEncrypt n s
  | .decrypt n => Sys2Proof.Machine.execDecrypt n s
  | .keysize => Sys2Proof.Machine.execKeysize s
  | .blocksize => Sys2Proof.Machine.execBlocksize s

end Sys2Proof.Machine
end

