-- ==== Sys2Proof/Machine/Port.lean ====
section
/-! DEFINITION. The port space (20_memory.md): its map, the access rules, what a read returns, what a write does,
and the host operations of 30_encoding.md R90. -/

namespace Sys2Proof.Machine

/-- What a port offset names (20_memory.md R61). -/
inductive Port where
  | cmd
  | status
  | result
  | size
  | rounds
  | blkin (i : Fin 8)
  | blkout (i : Fin 8)
  | keybuf (i : Nat)
  deriving DecidableEq, Repr

/-- The register at a 4-aligned offset below 0x014. -/
def registerAt (index : Nat) : Port :=
  match index with
  | 0 => .cmd
  | 1 => .status
  | 2 => .result
  | 3 => .size
  | _ => .rounds

/-- A port that admits accesses of exactly `width` bytes (R62). -/
def admitWidth (width n : Nat) (port : Port) : Except Refusal Port :=
  if n = width then .ok port else .error .wrongAccess

/-- The port an access of n bytes at an offset reaches, or why it is refused (R61–R64; log 14). -/
def portAt (p : Part) (off : Offset) (n : Nat) : Except Refusal Port :=
  if off.toNat < 0x014 then
    if off.toNat % 4 = 0 then admitWidth 4 n (registerAt (off.toNat / 4)) else .error .wrongAccess
  else if off.toNat < 0x020 then .error .reservedOffset
  else if off.toNat < 0x028 then admitWidth 1 n (.blkin (Fin.ofNat 8 (off.toNat - 0x020)))
  else if off.toNat < 0x030 then admitWidth 1 n (.blkout (Fin.ofNat 8 (off.toNat - 0x028)))
  else if off.toNat < 0x100 then .error .reservedOffset
  else if off.toNat - 0x100 < p.keybufBytes then admitWidth 1 n (.keybuf (off.toNat - 0x100))
  else .error .reservedOffset

/-- The value a read returns (R61); CMD and KEYBUF read as 0 (R65). -/
def portValue (s : State) : Port → Reply
  | .cmd => .word 0
  | .status => .word s.status.word
  | .result => .word s.result
  | .size => .word s.size
  | .rounds => .word s.rounds
  | .blkin i => .byte s.blkin[i]
  | .blkout i => .byte s.blkout[i]
  | .keybuf _ => .byte 0

/-- Execute(w), the effect of a write to CMD (30_encoding.md R88). -/
def executeWord (w : Word) (s : State) : Result :=
  match decode w with
  | .ok i => exec i s
  | .error _ => .next (illegalCommand s)

/-- Write one byte of BLKIN (10_state.md R35). -/
def State.writeBlkin (s : State) (i : Fin 8) (b : Byte) : State := { s with blkin := s.blkin.set i b }

/-- Write one byte of KEYBUF (10_state.md R34). -/
def State.writeKeybuf (s : State) (i : Nat) (b : Byte) : State := { s with keybuf := s.keybuf.write i b }

/-- A write of `v` to a port: CMD executes a command, BLKIN and KEYBUF take the byte, the rest is read-only
(R61, R64, R66). -/
def portWrite (v : Word) (s : State) : Port → Result
  | .cmd => executeWord v s
  | .status => .refused .readOnly
  | .result => .refused .readOnly
  | .size => .refused .readOnly
  | .rounds => .refused .readOnly
  | .blkin i => .next (s.writeBlkin i (v.setWidth 8))
  | .blkout _ => .refused .readOnly
  | .keybuf i => .next (s.writeKeybuf i (v.setWidth 8))

/-- A read has returned a value. -/
def State.reply (s : State) (v : Reply) : State := { s with replies := s.replies ++ [v] }

/-- MemRead(off, n). -/
def memRead (off : Offset) (n : Nat) (s : State) : Result :=
  match portAt s.part off n with
  | .error e => .refused e
  | .ok port => .next (s.reply (portValue s port))

/-- MemWrite(off, n, v). -/
def memWrite (off : Offset) (n : Nat) (v : Word) (s : State) : Result :=
  match portAt s.part off n with
  | .error e => .refused e
  | .ok port => portWrite v s port

/-- The host duty (70_reset_and_hazards.md R282): while BUSY = 1 the host only reads STATUS, or the platform resets. -/
def keepsDuty (busy : Bool) : HostOp → Bool
  | .memRead off n => !busy || (off == 0x004 && n == 4)
  | .memWrite _ _ _ => !busy
  | .wait => true
  | .reset => true

/-- One read of the WAIT loop (30_encoding.md R90): the value of STATUS is returned, and the loop goes on while BUSY
is 1 (log 4). -/
def waitOnce (s : State) : State :=
  let t := s.reply (.word s.status.word)
  if s.status.busy then { t with hostOps := .wait :: t.hostOps } else t

/-- Reset (70_reset_and_hazards.md R270): every state item takes its reset value. The part stays, and so do the host's
own operations and what it has read (log 5). -/
def resetEngine (s : State) : State :=
  { State.resetOf s.part with hostOps := s.hostOps, replies := s.replies }

/-- The meaning of one host operation, already taken from the pending ones. -/
def runHostOp (op : HostOp) (s : State) : Result :=
  if keepsDuty s.status.busy op then
    match op with
    | .memRead off n => memRead off n s
    | .memWrite off n v => memWrite off n v s
    | .wait => .next (waitOnce s)
    | .reset => .next (resetEngine s)
  else .refused .hostDuty

/-- The write that hands the engine a command word: WRITE32 0x000, w (30_encoding.md R90). -/
def writeCmd (w : Word) : HostOp := .memWrite 0x000 4 w

end Sys2Proof.Machine
end

