-- ==== Sys2Proof/Machine/Step.lean ====
section
/-! DEFINITION. One step of the machine: the oldest pending host operation (20_memory.md R70). -/

namespace Sys2Proof.Machine

/-- The host's accesses take effect one at a time, in the host's program order (20_memory.md R70); a command is one
step (70_reset_and_hazards.md R280). With nothing pending the engine idles and holds its state (60_exceptions.md
R256). -/
def step (s : State) : Host.Outcome State Fault Refusal :=
  match s.hostOps with
  | [] => .next s
  | op :: rest => runHostOp op { s with hostOps := rest }

/-- The state whose very next step runs the given word: the host writes it to CMD next (log 3). -/
def State.withFetchWord (s : State) (nbits w : Nat) : State :=
  { s with hostOps := writeCmd (tableWord nbits w) :: s.hostOps }

end Sys2Proof.Machine
end

