-- ==== Sys2Proof/Machine/Assembler.lean ====
section
/-! DEFINITION. The host program's lines and what they stand for (30_encoding.md R89, R90). -/

namespace Sys2Proof.Machine

/-- One line of a host program (R89, R90); its text form is not modelled (log 21). -/
inductive HostLine where
  /-- A command with its operand. -/
  | command (i : Instr)
  | write8 (off : Offset) (b : Byte)
  | write32 (off : Offset) (w : Word)
  | read8 (off : Offset)
  | read32 (off : Offset)
  | loadkey (key : List Byte)
  | loadblk (block : Block)
  | readblk
  | wait
  | status
  deriving DecidableEq, Repr

/-- WRITE8 off, b is MemWrite(off, 1, b). -/
def write8Op (off : Offset) (b : Byte) : HostOp := .memWrite off 1 (b.setWidth 32)

/-- WRITE8 base+i, b_i for i = 0, 1, …, in order. -/
def writeBytes (base : Offset) (bytes : List Byte) : List HostOp :=
  bytes.mapIdx (fun i b => write8Op (base + BitVec.ofNat 32 i) b)

/-- The expansion of a line (R90); the assembler refuses a command whose operand is out of range (R89). -/
def assemble : HostLine → Option (List HostOp)
  | .command i => if i.wellFormed then some [writeCmd (encode i)] else none
  | .write8 off b => some [write8Op off b]
  | .write32 off w => some [.memWrite off 4 w]
  | .read8 off => some [.memRead off 1]
  | .read32 off => some [.memRead off 4]
  | .loadkey key => some (writeBytes 0x100 key)
  | .loadblk block => some (writeBytes 0x020 block.toList)
  | .readblk => some ((List.range 8).map (fun i => .memRead (0x028 + BitVec.ofNat 32 i) 1))
  | .wait => some [.wait]
  | .status => some [.memRead 0x004 4]

end Sys2Proof.Machine
end

