-- ==== Sys2Proof/Safety.lean ====
section
/-! DEFINITION. The machine's invariant, and what counts as a safe run: one in which no host access is refused. -/

namespace Sys2Proof.Machine

/-- A subkey word below 2^20 (10_state.md R39). -/
abbrev RoundKey.narrow (k : RoundKey) : Prop := k.k0.toNat < 2 ^ 20 ∧ k.k1.toNat < 2 ^ 20 ∧ k.k2.toNat < 2 ^ 20

/-- 10_state.md R45, R27, R32 and R33: what SIZE, ROUNDS and THIN are with and without an instance. -/
structure State.InstanceInv (s : State) : Prop where
  configured : s.status.cfg = true →
    (s.status.thin = true ∧ s.size.toNat = 1 ∧ s.rounds.toNat = 8) ∨
    (s.status.thin = false ∧ 1 ≤ s.size.toNat ∧ s.size.toNat ≤ s.part.levelMax ∧ s.rounds.toNat = 16 * s.size.toNat)
  bare : s.status.cfg = false → s.size = 0 ∧ s.rounds = 0 ∧ s.status.thin = false

/-- What holds of every reachable state. -/
structure State.Inv (s : State) : Prop where
  /-- 00_scope.md R6. -/
  part : s.part.wf
  /-- 70_reset_and_hazards.md R280: BUSY reads 0 between commands. -/
  idle : s.status.busy = false
  /-- 10_state.md R25: codes 6 to 15 are never written. -/
  err : s.status.err.toNat ≤ 5
  /-- 10_state.md R28: a recorded error has set EANY. -/
  eany : s.status.err ≠ 0 → s.status.eany = true
  /-- 10_state.md R45. -/
  inst : s.InstanceInv
  /-- KEYBUF is canonical and lies within KEYBUF_BYTES (00_scope.md R7). -/
  keybufWf : s.keybuf.wf
  keybufRange : ∀ c ∈ s.keybuf, c.1 < s.part.keybufBytes
  /-- KS is canonical. -/
  ksWf : s.ks.wf
  /-- 10_state.md R37, 93_implementation_defined.md I12: entries at ROUNDS and above are zero. -/
  ksRange : ∀ c ∈ s.ks, c.1 < s.rounds.toNat
  /-- 10_state.md R39: every subkey word is below 2^20. -/
  ksNarrow : ∀ c ∈ s.ks, c.2.narrow
  /-- 10_state.md R42. -/
  roundIdx : s.roundIdx ≤ s.part.roundsMax

/-- A run of n steps in which no access is refused: a run of the model in the sense of 93_implementation_defined.md. -/
def SafeRun (n : Nat) (s : State) : Prop := ∃ t, Host.Core.run core n s = .next t

end Sys2Proof.Machine
end

