-- ==== Sys2Proof/Certificates/Slice0/Obligations.lean ====
section
/-! DEFINITION. The statements for the provers, each with the rules of spec/ it formalises, and the small
vocabulary they are written in (Sys2Proof.Claims), which repeats the spec's own formulas independently of the
model's definitions. -/

open Sys2Proof Sys2Proof.Machine

namespace Sys2Proof.Claims

/-- OP of a word, as a number (30_encoding.md R80). -/
def opOf (w : Word) : Nat := w.toNat % 16

/-- RSV of a word, as a number (R80). -/
def rsvOf (w : Word) : Nat := w.toNat / 16 % 16

/-- ARG of a word, as a number (R80). -/
def argOf (w : Word) : Nat := w.toNat / 256

/-- The encodings R83, R84 and R85 call illegal. -/
def IllegalWord (w : Word) : Prop :=
  (opOf w = 0 ∨ 8 ≤ opOf w) ∨ rsvOf w ≠ 0 ∨ ((opOf w = 3 ∨ opOf w = 6 ∨ opOf w = 7) ∧ argOf w ≠ 0)

/-- ARG of a word as a signed 24-bit number (R81). -/
def signedArg (w : Word) : Int := if argOf w < 2 ^ 23 then argOf w else (argOf w : Int) - 2 ^ 24

/-- The opcode map of R82 with the operands of R81: match, mask, and the instruction a word of that row is. -/
def opcodeRows : List (Word × Word × (Word → Instr)) :=
  [(0x00000001, 0x000000FF, fun w => .construct (signedArg w)),
   (0x00000002, 0x000000FF, fun w => .setkey (argOf w)),
   (0x00000003, 0xFFFFFFFF, fun _ => .clear),
   (0x00000004, 0x000000FF, fun w => .encrypt (argOf w)),
   (0x00000005, 0x000000FF, fun w => .decrypt (argOf w)),
   (0x00000006, 0xFFFFFFFF, fun _ => .keysize),
   (0x00000007, 0xFFFFFFFF, fun _ => .blocksize)]

/-- The worked encodings of R91. -/
def encodingExamples : List (Word × Instr) :=
  [(0x00000001, .construct 0), (0x00000101, .construct 1), (0x00000201, .construct 2), (0xFFFFFF01, .construct (-1)),
   (0x00000802, .setkey 8), (0x00001002, .setkey 16), (0x00000003, .clear), (0x00000804, .encrypt 8),
   (0x00000805, .decrypt 8), (0x00000006, .keysize), (0x00000007, .blocksize)]

/-- STATUS after a success (60_exceptions.md R246, R88): ERR 0, BUSY 0, the other bits kept. -/
def okStatus (st : Status) : Status := { st with err := 0, busy := false }

/-- The state after `raise e` with a given code (R245): ERR, EANY and BUSY written, nothing else. -/
def failedWith (code : BitVec 4) (s : State) : State :=
  { s with status := { s.status with err := code, eany := true, busy := false } }

/-- The commands that raise NoInstance (60_exceptions.md R243). -/
def needsInstance : Instr → Prop
  | .construct _ => False
  | .setkey _ => True
  | .clear => True
  | .encrypt _ => True
  | .decrypt _ => True
  | .keysize => True
  | .blocksize => False

/-- The operand checks of R241 and R242: the code of the error an instruction's operand gives it, if any. -/
def operandError (i : Instr) (s : State) (code : BitVec 4) : Prop :=
  match i with
  | .construct level => (s.part.levelMax : Int) < level ∧ 1 ≤ level ∧ code = 5
  | .setkey n => n ≠ 8 * s.size.toNat ∧ code = 1
  | .clear => False
  | .encrypt n => n ≠ 8 ∧ code = 2
  | .decrypt n => n ≠ 8 ∧ code = 2
  | .keysize => False
  | .blocksize => False

/-- The first check of R247 that a word fails, by the code it reports. -/
def reportsError (w : Word) (s : State) (code : BitVec 4) : Prop :=
  (IllegalWord w ∧ code = 4) ∨
  ∃ i, decode w = .ok i ∧
    ((needsInstance i ∧ s.status.cfg = false ∧ code = 3) ∨
     (¬ (needsInstance i ∧ s.status.cfg = false) ∧ operandError i s code))

/-- V[w] of 43_key_schedule.md R171: KB[w] as PackKB left it for key block i. -/
def packedWord (keybuf : Memory) (i w : Nat) : Half :=
  keybuf.read (8 * i + 2 * (3 - w)) ++ keybuf.read (8 * i + 2 * (3 - w) + 1)

/-- The right side of R171: the bit that step k of pass 3q + x of round offset r extracts, in the c-th BUILDBLOCK on
key block i. -/
def scheduleBit (keybuf : Memory) (i c r x q k : Nat) : Bool :=
  let t := 15 * (8 * c + r) + (3 * q + x)
  let w := ((keyrot (Fin.ofNat 16 (8 * c + r))).val + k) % 4
  xor ((packedWord keybuf i w).getLsbD (t % 16)) (decide (t / 16 % 2 = 1))

/-- R210: the half-blocks before each pair of rounds. -/
def EncryptTrace (ks : KeyFile) (pairs : Nat) (left right : Nat → Word) : Prop :=
  ∀ p < pairs, left (p + 1) = left p ^^^ roundF (right p) (ks.read (2 * p)) ∧
    right (p + 1) = right p ^^^ roundF (left (p + 1)) (ks.read (2 * p + 1))

/-- R211: the same with the round keys from last to first. -/
def DecryptTrace (ks : KeyFile) (pairs : Nat) (left right : Nat → Word) : Prop :=
  ∀ p < pairs, left (p + 1) = left p ^^^ roundF (right p) (ks.read (2 * pairs - 1 - 2 * p)) ∧
    right (p + 1) = right p ^^^ roundF (left (p + 1)) (ks.read (2 * pairs - 2 - 2 * p))

/-- 20_memory.md R68: L from bytes 0–3 and R from bytes 4–7 of a block, most-significant byte first. -/
def BlockIs (b : Block) (left right : Word) : Prop :=
  left.toNat = b[0].toNat * 2 ^ 24 + b[1].toNat * 2 ^ 16 + b[2].toNat * 2 ^ 8 + b[3].toNat ∧
  right.toNat = b[4].toNat * 2 ^ 24 + b[5].toNat * 2 ^ 16 + b[6].toNat * 2 ^ 8 + b[7].toNat

/-- A polynomial over GF(2) read off a bit vector (41_gf_arith.md R122). -/
def PolyOf {n : Nat} (v : BitVec n) (P : Polynomial (ZMod 2)) : Prop :=
  ∀ i, P.coeff i = if v.getLsbD i then 1 else 0

/-- dst(k) of 42_spbox.md R143. -/
def dstTable : Vector (Fin 32) 32 :=
  #v[0, 7, 10, 13, 19, 21, 24, 30, 3, 5, 8, 14, 16, 23, 26, 29,
     2, 4, 9, 15, 17, 22, 27, 28, 1, 6, 11, 12, 18, 20, 25, 31]

/-- MASK_p of 42_spbox.md R148. -/
def planeMask : Vector Word 4 := #v[0x82141842, 0x18428214, 0x24814128, 0x41282481]

/-- The reads 20_memory.md R61 and R62 admit. -/
def AdmittedRead (p : Part) (off n : Nat) : Prop :=
  (n = 4 ∧ (off = 0x000 ∨ off = 0x004 ∨ off = 0x008 ∨ off = 0x00C ∨ off = 0x010)) ∨
  (n = 1 ∧ ((0x020 ≤ off ∧ off < 0x030) ∨ (0x100 ≤ off ∧ off < 0x100 + 8 * p.levelMax)))

/-- The writes 20_memory.md R61 and R64 admit. -/
def AdmittedWrite (p : Part) (off n : Nat) : Prop :=
  (n = 4 ∧ off = 0x000) ∨
  (n = 1 ∧ ((0x020 ≤ off ∧ off < 0x028) ∨ (0x100 ≤ off ∧ off < 0x100 + 8 * p.levelMax)))

/-- Apply a change of the state to the state a step answers. -/
def mapNext (f : State → State) : Result → Result
  | .next s => .next (f s)
  | .fault e => .fault e
  | .refused e => .refused e

/-- The state without the scratch registers (10_state.md R43). -/
def eraseScratch (s : State) : State := { s with kb := Vector.replicate 4 0, l := 0, r := 0, roundIdx := 0 }

/-- The state without what no port reaches or reads back: KS, KEYBUF and the scratch (60_exceptions.md R252). -/
def eraseSecrets (s : State) : State := { eraseScratch s with ks := [], keybuf := [] }

/-- The host operation writes an ENCRYPT or DECRYPT word to CMD: a 4-byte write at 0x000 (20_memory.md R61). -/
def RunsCipher (op : HostOp) : Prop :=
  ∃ w k, op = .memWrite 0x000 4 w ∧ (decode w = .ok (.encrypt k) ∨ decode w = .ok (.decrypt k))

end Sys2Proof.Claims

open Sys2Proof.Claims

/-! ## Encoding -/

/-- Decoding an encoded well-formed instruction gives it back, with every operand the ARG field admits
(30_encoding.md R81, R87, R90). -/
def Obligations.DecodeOfEncodeIsTheInstruction : Prop :=
  ∀ i : Instr, i.wellFormed = true → decode (encode i) = .ok i

/-- A word that decodes has a well-formed instruction, and is the only encoding of it (R80, R81, R90). -/
def Obligations.EncodeOfDecodeIsTheWord : Prop :=
  ∀ (w : Word) (i : Instr), decode w = .ok i → i.wellFormed = true ∧ encode i = w

/-- R83, R84, R85: the illegal words fail with IllegalCommand (code 4) and nothing else. R86: every other word is one
of the commands. -/
def Obligations.IllegalWordsFailAndAllOthersAreCommands : Prop :=
  ∀ (w : Word) (s : State),
    (IllegalWord w → executeWord w s = .next (failedWith 4 s)) ∧ (¬ IllegalWord w → ∃ i, decode w = .ok i)

/-- R82, R81: a word selects a command, with the operand R81 assembles, exactly when (w & mask) = match; no two rows
match the same word; a word no row matches is illegal. -/
def Obligations.OpcodeMapSelectsByMatchAndMask : Prop :=
  (∀ row ∈ opcodeRows, ∀ w : Word, w &&& row.2.1 = row.1 ↔ decode w = .ok (row.2.2 w)) ∧
  opcodeRows.Pairwise (fun a b => ∀ w : Word, ¬ (w &&& a.2.1 = a.1 ∧ w &&& b.2.1 = b.1)) ∧
  (∀ w : Word, (∀ row ∈ opcodeRows, w &&& row.2.1 ≠ row.1) ↔ ∃ e, decode w = .error e)

/-- R91: the worked encodings, in both directions, and its three illegal words. -/
def Obligations.WorkedEncodingsDecode : Prop :=
  (∀ x ∈ encodingExamples, decode x.1 = .ok x.2 ∧ encode x.2 = x.1) ∧
  decode 0x00000014 = .error .reservedField ∧ decode 0x00000008 = .error .reservedOp ∧
  decode 0x00000103 = .error .unusedArg

/-! ## A step, and how a command ends -/

/-- 20_memory.md R70, 30_encoding.md R88: when the host's next operation writes a command word to CMD and the engine
is idle, the step is exec of the decoded instruction, the operation being taken off the pending ones; a word that
decodes to nothing fails with IllegalCommand. The queue of host operations is the model's form (log 3). -/
def Obligations.StepRunsTheDecodedCommand : Prop :=
  ∀ (s : State) (rest : List HostOp) (w : Word), s.hostOps = .memWrite 0x000 4 w :: rest → s.status.busy = false →
    (∀ i, decode w = .ok i → step s = exec i { s with hostOps := rest }) ∧
    (∀ e, decode w = .error e → step s = .next (failedWith 4 { s with hostOps := rest }))

/-- 30_encoding.md R89, R90: an assembled command line, put before the pending operations of an idle engine, runs as
exec of that command; the assembler refuses exactly the operands out of range. The queue of host operations is the
model's form (log 3). -/
def Obligations.AssembledCommandRunsAsWritten : Prop :=
  ∀ (i : Instr) (s : State), s.status.busy = false →
    (i.wellFormed = true → ∃ ops, assemble (.command i) = some ops ∧
      step { s with hostOps := ops ++ s.hostOps } = exec i s) ∧
    (i.wellFormed = false → assemble (.command i) = none)

/-- 60_exceptions.md R241–R247: every word ends in a next state; the first failing check alone decides the code, a
failure writes ERR, EANY and BUSY and nothing else, and a success writes ERR = 0 and leaves EANY. -/
def Obligations.EveryWordEndsAsPrecedenceSays : Prop :=
  ∀ (w : Word) (s : State),
    (∀ code, reportsError w s code → executeWord w s = .next (failedWith code s)) ∧
    ((∀ code, ¬ reportsError w s code) → ∃ t, executeWord w s = .next t ∧
      t.status.err = 0 ∧ t.status.eany = s.status.eany ∧ t.status.busy = false)

/-- 10_state.md R28: over one step, EANY is set by a failed command, cleared by reset alone, and otherwise kept. -/
def Obligations.ErrorRecordIsSticky : Prop :=
  ∀ s t : State, step s = .next t →
    (∀ rest, s.hostOps = .reset :: rest → t.status.eany = false) ∧
    ((∀ rest, s.hostOps ≠ .reset :: rest) →
      (s.status.eany = true → t.status.eany = true) ∧
      (∀ w rest, s.hostOps = .memWrite 0x000 4 w :: rest →
        (t.status.err ≠ 0 → t.status.eany = true) ∧ (t.status.err = 0 → t.status.eany = s.status.eany)) ∧
      ((∀ w rest, s.hostOps ≠ .memWrite 0x000 4 w :: rest) → t.status.eany = s.status.eany))

/-- 10_state.md R26: CFG is 0 at reset and becomes 1 by a successful CONSTRUCT, no other command changes it, and once 1 it stays 1
until reset; while it is 0, SETKEY, CLEAR, ENCRYPT, DECRYPT and KEYSIZE fail with NoInstance (code 3). -/
def Obligations.ConfiguredOnlyByConstruct : Prop :=
  (∀ p : Part, (State.resetOf p).status.cfg = false) ∧
  (∀ (i : Instr) (s t : State), exec i s = .next t →
    ((∃ level, i = .construct level) → t.status.err = 0 → t.status.cfg = true) ∧
    ((∀ level, i ≠ .construct level) ∨ t.status.err ≠ 0 → t.status.cfg = s.status.cfg) ∧
    (needsInstance i → s.status.cfg = false → t = failedWith 3 s)) ∧
  (∀ s t : State, step s = .next t → (∀ rest, s.hostOps ≠ .reset :: rest) →
    s.status.cfg = true → t.status.cfg = true)

/-- 10_state.md R31–R37: which commands may change which register, over every word written to CMD. This is the frame
of every command at once: RESULT by KEYSIZE and BLOCKSIZE; SIZE, ROUNDS and THIN by CONSTRUCT; BLKOUT by ENCRYPT and
DECRYPT; KS by CONSTRUCT, SETKEY and CLEAR; KB by SETKEY; L and R by ENCRYPT and DECRYPT; ROUNDIDX by these three; KEYBUF, BLKIN, the part and
the host's side by none. -/
def Obligations.EachRegisterHasItsWriters : Prop :=
  ∀ (w : Word) (s t : State), executeWord w s = .next t →
    (t.result ≠ s.result → decode w = .ok .keysize ∨ decode w = .ok .blocksize) ∧
    (t.size ≠ s.size ∨ t.rounds ≠ s.rounds ∨ t.status.thin ≠ s.status.thin →
      ∃ level, decode w = .ok (.construct level)) ∧
    (t.blkout ≠ s.blkout ∨ t.l ≠ s.l ∨ t.r ≠ s.r → decode w = .ok (.encrypt 8) ∨ decode w = .ok (.decrypt 8)) ∧
    (t.ks ≠ s.ks → (∃ level, decode w = .ok (.construct level)) ∨ (∃ n, decode w = .ok (.setkey n)) ∨
      decode w = .ok .clear) ∧
    (t.kb ≠ s.kb → ∃ n, decode w = .ok (.setkey n)) ∧
    (t.roundIdx ≠ s.roundIdx → (∃ n, decode w = .ok (.setkey n)) ∨ decode w = .ok (.encrypt 8) ∨
      decode w = .ok (.decrypt 8)) ∧
    t.keybuf = s.keybuf ∧ t.blkin = s.blkin ∧ t.part = s.part ∧ t.hostOps = s.hostOps ∧ t.replies = s.replies

/-! ## CONSTRUCT -/

/-- 40_instance.md R101: a level below 1 always succeeds and selects the thin variant; with it, R104's zero schedule
and everything CONSTRUCT leaves unchanged. -/
def Obligations.ConstructBelowOneIsThin : Prop :=
  ∀ (level : Int) (s : State), level < 1 →
    ∃ t, exec (.construct level) s = .next t ∧
      t.size = 1 ∧ t.rounds = 8 ∧ t.status.thin = true ∧ t.status.cfg = true ∧ t.status.err = 0 ∧
      (∀ q, t.ks.read q = ⟨0, 0, 0⟩) ∧
      t = { s with size := t.size, rounds := t.rounds, ks := t.ks,
                   status := { okStatus s.status with cfg := true, thin := true } }

/-- 40_instance.md R102: a level from 1 to LEVEL_MAX gives SIZE = level, ROUNDS = 16·level and THIN = 0; with it,
R104's zero schedule and everything CONSTRUCT leaves unchanged. -/
def Obligations.ConstructSelectsLevel : Prop :=
  ∀ (level : Int) (s : State), s.part.wf → 1 ≤ level → level ≤ s.part.levelMax →
    ∃ t, exec (.construct level) s = .next t ∧
      (t.size.toNat : Int) = level ∧ (t.rounds.toNat : Int) = 16 * level ∧ t.status.thin = false ∧
      (∀ q, t.ks.read q = ⟨0, 0, 0⟩) ∧
      t = { s with size := t.size, rounds := t.rounds, ks := t.ks,
                   status := { okStatus s.status with cfg := true, thin := false } }

/-- 40_instance.md R105: a CONSTRUCT that succeeds gives the same state whatever instance and schedule were there
before, with the new SIZE, ROUNDS and THIN and a zero schedule (R104); R103: a level above LEVEL_MAX fails with
InvalidLevel, which leaves the old instance as it was. -/
def Obligations.ConstructReplacesTheInstance : Prop :=
  ∀ (level : Int) (s : State) (ks : KeyFile) (size rounds : Word) (cfg thin : Bool), s.part.wf →
    (level ≤ s.part.levelMax → ∃ t,
      exec (.construct level) s = .next t ∧
      exec (.construct level)
          { s with ks := ks, size := size, rounds := rounds, status := { s.status with cfg := cfg, thin := thin } } =
        .next t ∧
      t.size.toNat = (if level < 1 then 1 else level.toNat) ∧
      t.rounds.toNat = (if level < 1 then 8 else 16 * level.toNat) ∧
      t.status.thin = decide (level < 1) ∧ t.status.cfg = true ∧ ∀ q, t.ks.read q = ⟨0, 0, 0⟩) ∧
    ((s.part.levelMax : Int) < level → exec (.construct level) s = .next (failedWith 5 s))

/-! ## The GF(2^8) unit -/

/-- 41_gf_arith.md R122: GF_MULT is the polynomial product modulo m(x), and its four consequences. -/
def Obligations.GfMultIsPolynomialProduct : Prop :=
  ∀ (a b c : Byte) (m : BitVec 9), 256 ≤ m.toNat →
    (∀ A B M P : Polynomial (ZMod 2), PolyOf a A → PolyOf b B → PolyOf m M → PolyOf (gfMult a b m) P →
      P = (A * B) %ₘ M) ∧
    gfMult a b m = gfMult b a m ∧ gfMult (gfMult a b m) c m = gfMult a (gfMult b c m) m ∧
    gfMult a (b ^^^ c) m = gfMult a b m ^^^ gfMult a c m ∧
    gfMult 0 b m = 0 ∧ gfMult a 0 m = 0 ∧ gfMult 1 b m = b

/-- 41_gf_arith.md R126, its first sentence: GF_EXP7 is the seventh power modulo m(x). -/
def Obligations.GfExp7IsSeventhPower : Prop :=
  ∀ (b : Byte) (m : BitVec 9), 256 ≤ m.toNat →
    ∀ B M P : Polynomial (ZMod 2), PolyOf b B → PolyOf m M → PolyOf (gfExp7 b m) P → P = B ^ 7 %ₘ M

/-- 41_gf_arith.md R128: each of the sixteen S-maps is a bijection on 0 … 255. -/
def Obligations.SMapsAreBijections : Prop :=
  ∀ p row : Fin 4,
    (∀ col, sMap p row col = gfExp7 (col ^^^ sxor p row) (smod p row)) ∧ Function.Bijective (sMap p row)

/-! ## The SP tables -/

/-- 42_spbox.md R143: PBOX[k] is the single bit dst(k), and the 32 entries set 32 different bits. R144: PERM32 moves
bit k to dst(k), fixes 0 and the all-ones word, and distributes over |, & and ^. -/
def Obligations.Perm32MovesEachBit : Prop :=
  (∀ k : Fin 32, pbox k = 1#32 <<< dstTable[k].val) ∧ Function.Bijective (fun k : Fin 32 => dstTable[k]) ∧
  (∀ (x : Word) (k : Fin 32), (perm32 x).getLsbD dstTable[k].val = x.getLsbD k.val) ∧
  perm32 0 = 0 ∧ perm32 0xFFFFFFFF = 0xFFFFFFFF ∧
  ∀ x y : Word, perm32 (x ||| y) = perm32 x ||| perm32 y ∧ perm32 (x &&& y) = perm32 x &&& perm32 y ∧
    perm32 (x ^^^ y) = perm32 x ^^^ perm32 y

/-- 42_spbox.md R148: entries of plane p set bits only in MASK_p = PERM32(0xFF << (24 − 8p)); the masks are pairwise
disjoint and cover the word; so OR and XOR of four entries, one from each plane, agree. -/
def Obligations.PlanesNeverOverlap : Prop :=
  (∀ p : Fin 4, planeMask[p] = perm32 (0xFF#32 <<< (24 - 8 * p.val)) ∧ ∀ i, sp p i &&& ~~~planeMask[p] = 0) ∧
  (∀ p q : Fin 4, p ≠ q → planeMask[p] &&& planeMask[q] = 0) ∧
  planeMask[0] ||| planeMask[1] ||| planeMask[2] ||| planeMask[3] = 0xFFFFFFFF ∧
  ∀ i0 i1 i2 i3, sp 0 i0 ||| sp 1 i1 ||| sp 2 i2 ||| sp 3 i3 = sp 0 i0 ^^^ sp 1 i1 ^^^ sp 2 i2 ^^^ sp 3 i3

/-- 42_spbox.md R149: in each plane the 256 indices of one row give 256 different entries, the plane holds exactly
256 distinct words, and each of them appears once per row. -/
def Obligations.PlaneEntriesAppearOncePerRow : Prop :=
  ∀ p : Fin 4,
    (∀ i j, spRow i = spRow j → sp p i = sp p j → i = j) ∧
    (Set.range (sp p)).ncard = 256 ∧ ∀ (j : BitVec 10) (row : Fin 4), ∃! i, spRow i = row ∧ sp p i = sp p j

/-! ## The round function -/

/-- 44_round_function.md R191, R192: the two expansions as the spec's shift-and-mask expressions. -/
def Obligations.ExpansionsAsShiftsAndMasks : Prop :=
  ∀ p : Word,
    (expandLeft p).setWidth 32 = ((p >>> 16) &&& 0x3FF) ||| (((p >>> 14) ||| (p <<< 18)) &&& 0xFFC00) ∧
    (expandRight p).setWidth 32 = (p &&& 0x3FF) ||| ((p <<< 2) &&& 0xFFC00)

/-- 44_round_function.md R194: bit by bit, K2 selects a swap of tl and tr; bits 31:20 of K2 do not matter to F. -/
def Obligations.SaltSwapsBitByBit : Prop :=
  (∀ (k2 tl tr : BitVec 20) (b : Nat), b < 20 →
    (k2.getLsbD b = true →
      (saltSwap k2 tl tr).1.getLsbD b = tr.getLsbD b ∧ (saltSwap k2 tl tr).2.getLsbD b = tl.getLsbD b) ∧
    (k2.getLsbD b = false →
      (saltSwap k2 tl tr).1.getLsbD b = tl.getLsbD b ∧ (saltSwap k2 tl tr).2.getLsbD b = tr.getLsbD b)) ∧
  ∀ (p k0 k1 k2 k2' : Word), k2 % 2 ^ 20 = k2' % 2 ^ 20 → roundF p ⟨k0, k1, k2⟩ = roundF p ⟨k0, k1, k2'⟩

/-- 44_round_function.md R195, R196: on K0 and K1 below 2^20 and every K2, F is the OR of four lookups, indexed by
`>> 10` and `& 0x3ff` of the salted halves XORed with K0 and K1, and (by the disjoint planes of 42_spbox.md R148) the XOR
of the same four; every index lies inside the 1024-entry table. -/
def Obligations.RoundFunctionIsXorOfFourLookups : Prop :=
  ∀ (p k0 k1 k2 : Word), k0.toNat < 2 ^ 20 → k1.toNat < 2 ^ 20 →
    let tl := (expandLeft p).setWidth 32
    let tr := (expandRight p).setWidth 32
    let al := (k2 &&& (tl ^^^ tr)) ^^^ tl ^^^ k0
    let ar := (k2 &&& (tl ^^^ tr)) ^^^ tr ^^^ k1
    let e0 := sp 0 (BitVec.ofNat 10 (al.toNat / 2 ^ 10))
    let e1 := sp 1 (BitVec.ofNat 10 (al.toNat % 2 ^ 10))
    let e2 := sp 2 (BitVec.ofNat 10 (ar.toNat / 2 ^ 10))
    let e3 := sp 3 (BitVec.ofNat 10 (ar.toNat % 2 ^ 10))
    roundF p ⟨k0, k1, k2⟩ = e0 ||| e1 ||| e2 ||| e3 ∧ roundF p ⟨k0, k1, k2⟩ = e0 ^^^ e1 ^^^ e2 ^^^ e3 ∧
    al.toNat / 2 ^ 10 < 1024 ∧ ar.toNat / 2 ^ 10 < 1024

/-! ## The key schedule: SETKEY and CLEAR -/

/-- 43_key_schedule.md R170: the low bit after t steps of a KB word, the word after 16 and after 32 steps, and the
120 steps of each KB word in one BUILDBLOCK. -/
def Obligations.KeyBlockRotationLaw : Prop :=
  (∀ (v : Half) (t : Nat), (kbStep^[t] v).getLsbD 0 = xor (v.getLsbD (t % 16)) (decide (t / 16 % 2 = 1))) ∧
  (∀ v : Half, kbStep^[16] v = ~~~v ∧ kbStep^[32] v = v) ∧
  ∀ (n rb : Nat) (sch : Schedule) (w : Fin 4), (buildBlock n rb sch).kb[w] = kbStep^[120] sch.kb[w]

/-- 43_key_schedule.md R171, R177, R178 for the level-n variant: SETKEY with the right length completes, every bit of
every round key is the closed form of R171, key block i feeding rounds 8i … 8i+7 and 16·SIZE−8−8i … 16·SIZE−1−8i;
every word is below 2^20 (R168), and nothing else of the machine changes but KB, ROUNDIDX and STATUS. -/
def Obligations.SetkeyExpandsToClosedForm : Prop :=
  ∀ s : State, s.status.cfg = true → s.status.thin = false → s.ks.wf → s.rounds.toNat = 16 * s.size.toNat →
    ∃ t, exec (.setkey (8 * s.size.toNat)) s = .next t ∧
      (∀ i r x q k, i < s.size.toNat → r < 8 → x < 3 → q < 5 → k < 4 →
        ((t.ks.read (8 * i + r)).word x).getLsbD (19 - (4 * q + k)) = scheduleBit s.keybuf i 0 r x q k ∧
        ((t.ks.read (16 * s.size.toNat - 8 - 8 * i + r)).word x).getLsbD (19 - (4 * q + k)) =
          scheduleBit s.keybuf i 1 r x q k) ∧
      (∀ j x, j < s.rounds.toNat → ((t.ks.read j).word x).toNat < 2 ^ 20) ∧
      (∀ j, s.rounds.toNat ≤ j → t.ks.read j = s.ks.read j) ∧
      t = { s with ks := t.ks, kb := t.kb, roundIdx := t.roundIdx, status := okStatus s.status }

/-- 43_key_schedule.md R176: the thin case completes and covers rounds 0–7 with the closed form of one forward
BUILDBLOCK; the thin schedule equals the first 8 round keys of the level-1 schedule for the same key. That ROUNDIDX
stays as it was is the model's choice (log 9), which 10_state.md R42 and R43 leave free. -/
def Obligations.ThinScheduleIsStartOfLevelOne : Prop :=
  ∀ s u : State, s.status.cfg = true → s.status.thin = true → s.size = 1 → s.rounds = 8 → s.ks.wf →
    u.status.cfg = true → u.status.thin = false → u.size = 1 → u.rounds = 16 → u.ks.wf →
    (∀ a < 8, s.keybuf.read a = u.keybuf.read a) →
    ∃ t v, exec (.setkey 8) s = .next t ∧ exec (.setkey 8) u = .next v ∧
      (∀ r x q k, r < 8 → x < 3 → q < 5 → k < 4 →
        ((t.ks.read r).word x).getLsbD (19 - (4 * q + k)) = scheduleBit s.keybuf 0 0 r x q k) ∧
      (∀ r < 8, t.ks.read r = v.ks.read r) ∧
      (∀ j, 8 ≤ j → t.ks.read j = s.ks.read j) ∧
      t = { s with ks := t.ks, kb := t.kb, status := okStatus s.status }

/-- 43_key_schedule.md R179: after a successful SETKEY, KS[0..ROUNDS−1] depends on ROUNDS, THIN and the first 8·SIZE
key bytes only. -/
def Obligations.ScheduleDependsOnKeyAlone : Prop :=
  ∀ s u : State, s.Inv → u.Inv → s.status.cfg = true → u.status.cfg = true →
    s.rounds = u.rounds → s.status.thin = u.status.thin →
    (∀ a < 8 * s.size.toNat, s.keybuf.read a = u.keybuf.read a) →
    ∃ t v, exec (.setkey (8 * s.size.toNat)) s = .next t ∧ exec (.setkey (8 * s.size.toNat)) u = .next v ∧
      t.status.err = 0 ∧ v.status.err = 0 ∧ ∀ j < s.rounds.toNat, t.ks.read j = v.ks.read j

/-- 43_key_schedule.md R180, R182: with an instance, CLEAR zeroes every round key and changes nothing but KS and the
end-of-command bits of STATUS; without one it fails with NoInstance, and with ARG ≠ 0 with IllegalCommand. -/
def Obligations.ClearZeroesOnlyTheSchedule : Prop :=
  ∀ s : State,
    (s.status.cfg = true →
      ∃ t, exec .clear s = .next t ∧ (∀ q, t.ks.read q = ⟨0, 0, 0⟩) ∧
        t = { s with ks := t.ks, status := okStatus s.status }) ∧
    (s.status.cfg = false → exec .clear s = .next (failedWith 3 s)) ∧
    (∀ w, opOf w = 3 → argOf w ≠ 0 → executeWord w s = .next (failedWith 4 s))

/-- 43_key_schedule.md R181: SETKEY then CLEAR then ENCRYPT gives the block a fresh CONSTRUCT of the same level gives,
whatever the engines held before; the same for DECRYPT. -/
def Obligations.ZeroScheduleDeterminism : Prop :=
  ∀ (level : Int) (s u : State) (plain : Block), s.part = u.part → level ≤ s.part.levelMax →
    ∃ s1 s2 s3 u1, exec (.construct level) s = .next s1 ∧ exec (.setkey (8 * s1.size.toNat)) s1 = .next s2 ∧
      exec .clear s2 = .next s3 ∧ exec (.construct level) u = .next u1 ∧
      s2.status.err = 0 ∧ s3.status.err = 0 ∧
      (∃ a b, exec (.encrypt 8) { s3 with blkin := plain } = .next a ∧
        exec (.encrypt 8) { u1 with blkin := plain } = .next b ∧ a.blkout = b.blkout) ∧
      (∃ a b, exec (.decrypt 8) { s3 with blkin := plain } = .next a ∧
        exec (.decrypt 8) { u1 with blkin := plain } = .next b ∧ a.blkout = b.blkout)

/-! ## ENCRYPT and DECRYPT -/

/-- 45_cipher_engine.md R210, R215 with 20_memory.md R68, R69: on an instance with an even number of rounds, ENCRYPT 8
completes; BLKOUT is R then L of the last half-blocks of the encryption loop, most-significant byte first; nothing
else changes but L, R, ROUNDIDX and the end-of-command bits of STATUS. Without an instance it fails with NoInstance,
and with another length with InvalidBlockLength, BLKOUT unchanged. -/
def Obligations.EncryptFollowsTheLoop : Prop :=
  ∀ (s : State) (pairs : Nat),
    (s.status.cfg = true → s.rounds.toNat = 2 * pairs →
      ∃ (t : State) (left right : Nat → Word), exec (.encrypt 8) s = .next t ∧
        BlockIs s.blkin (left 0) (right 0) ∧ EncryptTrace s.ks pairs left right ∧
        BlockIs t.blkout (right pairs) (left pairs) ∧
        t = { s with blkout := t.blkout, l := t.l, r := t.r, roundIdx := t.roundIdx, status := okStatus s.status }) ∧
    (∀ n, s.status.cfg = false → exec (.encrypt n) s = .next (failedWith 3 s)) ∧
    (∀ n, s.status.cfg = true → n ≠ 8 → exec (.encrypt n) s = .next (failedWith 2 s))

/-- 45_cipher_engine.md R211, R220 with 20_memory.md R68, R69: on an instance with an even number of rounds, DECRYPT 8
completes; BLKOUT is R then L of the last half-blocks of the decryption loop, most-significant byte first; nothing
else changes but L, R, ROUNDIDX and the end-of-command bits of STATUS. Without an instance it fails with NoInstance,
and with another length with InvalidBlockLength, BLKOUT unchanged. -/
def Obligations.DecryptFollowsTheLoop : Prop :=
  ∀ (s : State) (pairs : Nat),
    (s.status.cfg = true → s.rounds.toNat = 2 * pairs →
      ∃ (t : State) (left right : Nat → Word), exec (.decrypt 8) s = .next t ∧
        BlockIs s.blkin (left 0) (right 0) ∧ DecryptTrace s.ks pairs left right ∧
        BlockIs t.blkout (right pairs) (left pairs) ∧
        t = { s with blkout := t.blkout, l := t.l, r := t.r, roundIdx := t.roundIdx, status := okStatus s.status }) ∧
    (∀ n, s.status.cfg = false → exec (.decrypt n) s = .next (failedWith 3 s)) ∧
    (∀ n, s.status.cfg = true → n ≠ 8 → exec (.decrypt n) s = .next (failedWith 2 s))

/-- 45_cipher_engine.md R221: DECRYPT gives the BLKOUT that ENCRYPT gives under the reversed schedule. -/
def Obligations.DecryptIsEncryptOfReversedSchedule : Prop :=
  ∀ (s : State) (ks : KeyFile), s.status.cfg = true → s.rounds.toNat % 2 = 0 →
    (∀ i < s.rounds.toNat, ks.read i = s.ks.read (s.rounds.toNat - 1 - i)) →
    ∃ t u, exec (.decrypt 8) s = .next t ∧ exec (.encrypt 8) { s with ks := ks } = .next u ∧ t.blkout = u.blkout

/-- 45_cipher_engine.md R222: for every configured instance, every KS contents and every block, DECRYPT of ENCRYPT's
output gives the block back, and so does ENCRYPT of DECRYPT's output. -/
def Obligations.CipherRoundTrip : Prop :=
  ∀ s : State, s.status.cfg = true → s.InstanceInv →
    (∃ t u, exec (.encrypt 8) s = .next t ∧ exec (.decrypt 8) { t with blkin := t.blkout } = .next u ∧
      u.blkout = s.blkin) ∧
    (∃ t u, exec (.decrypt 8) s = .next t ∧ exec (.encrypt 8) { t with blkin := t.blkout } = .next u ∧
      u.blkout = s.blkin)

/-! ## KEYSIZE and BLOCKSIZE -/

/-- 45_cipher_engine.md R230: with an instance, KEYSIZE writes 8·SIZE to RESULT and changes nothing else; without one
it fails with NoInstance, and with ARG ≠ 0 with IllegalCommand. -/
def Obligations.KeysizeReturnsKeyBytes : Prop :=
  ∀ s : State,
    (s.part.wf → s.status.cfg = true → s.InstanceInv →
      ∃ t, exec .keysize s = .next t ∧ t.result.toNat = 8 * s.size.toNat ∧
        t = { s with result := t.result, status := okStatus s.status }) ∧
    (s.status.cfg = false → exec .keysize s = .next (failedWith 3 s)) ∧
    (∀ w, opOf w = 6 → argOf w ≠ 0 → executeWord w s = .next (failedWith 4 s))

/-- 45_cipher_engine.md R233: in every state, configured or not, BLOCKSIZE writes 8 to RESULT and changes nothing
else; with ARG ≠ 0 it fails with IllegalCommand. -/
def Obligations.BlocksizeReturnsEight : Prop :=
  ∀ s : State,
    (∃ t, exec .blocksize s = .next t ∧ t.result = 8 ∧
      t = { s with result := t.result, status := okStatus s.status }) ∧
    (∀ w, opOf w = 7 → argOf w ≠ 0 → executeWord w s = .next (failedWith 4 s))

/-! ## The port space -/

/-- 20_memory.md R62, R63, R64: on an idle engine an access completes exactly where the map admits it, and is refused
everywhere else. -/
def Obligations.AccessesAdmittedExactly : Prop :=
  ∀ (s : State) (rest : List HostOp) (off : Offset) (n : Nat) (v : Word), s.status.busy = false →
    (s.hostOps = .memRead off n :: rest →
      (AdmittedRead s.part off.toNat n → ∃ t, step s = .next t) ∧
      (¬ AdmittedRead s.part off.toNat n → ∃ e, step s = .refused e)) ∧
    (s.hostOps = .memWrite off n v :: rest →
      (AdmittedWrite s.part off.toNat n → ∃ t, step s = .next t) ∧
      (¬ AdmittedWrite s.part off.toNat n → ∃ e, step s = .refused e))

/-- 10_state.md R24, R30 and 20_memory.md R65: what an admitted read returns, STATUS by the place of each bit; CMD and
KEYBUF read as 0; RESULT, SIZE, ROUNDS, BLKIN and BLKOUT by the map of R61. The read changes nothing but what the host
has read; that the value is appended to `replies`, and the operation taken off `hostOps`, is the model's choice (log 3). -/
def Obligations.ReadsReturnTheNamedRegister : Prop :=
  ∀ (s : State) (rest : List HostOp) (off : Offset) (n : Nat), s.status.busy = false →
    s.hostOps = .memRead off n :: rest → AdmittedRead s.part off.toNat n →
    ∃ v, step s = .next { s with hostOps := rest, replies := s.replies ++ [v] } ∧
      (off.toNat = 0x000 → v = .word 0) ∧
      (off.toNat = 0x004 → ∃ w : Word, v = .word w ∧ w.toNat = s.status.err.toNat + 16 * s.status.cfg.toNat +
        32 * s.status.thin.toNat + 64 * s.status.eany.toNat + 128 * s.status.busy.toNat) ∧
      (off.toNat = 0x008 → v = .word s.result) ∧ (off.toNat = 0x00C → v = .word s.size) ∧
      (off.toNat = 0x010 → v = .word s.rounds) ∧
      (∀ i : Fin 8, off.toNat = 0x020 + i.val → v = .byte s.blkin[i]) ∧
      (∀ i : Fin 8, off.toNat = 0x028 + i.val → v = .byte s.blkout[i]) ∧
      (0x100 ≤ off.toNat → v = .byte 0)

/-- 20_memory.md R66: a step that is neither a write nor a reset changes nothing but the host's own side, and a write
to BLKIN or KEYBUF changes only the written byte. -/
def Obligations.OnlyCommandWritesHaveSideEffects : Prop :=
  ∀ s t : State, s.keybuf.wf → step s = .next t →
    ((∀ off n v rest, s.hostOps ≠ .memWrite off n v :: rest) → (∀ rest, s.hostOps ≠ .reset :: rest) →
      t = { s with hostOps := t.hostOps, replies := t.replies }) ∧
    (∀ off v rest, s.hostOps = .memWrite off 1 v :: rest →
      (∀ i : Fin 8, off.toNat = 0x020 + i.val →
        t = { s with hostOps := rest, blkin := t.blkin } ∧
        ∀ j : Fin 8, t.blkin[j] = if i = j then v.setWidth 8 else s.blkin[j]) ∧
      (∀ i, off.toNat = 0x100 + i →
        t = { s with hostOps := rest, keybuf := t.keybuf } ∧
        ∀ j, t.keybuf.read j = if i = j then v.setWidth 8 else s.keybuf.read j))

/-- 20_memory.md R74: host writes to BLKIN or KEYBUF change neither KS nor BLKOUT, and the contents of KEYBUF do not
enter ENCRYPT or DECRYPT. -/
def Obligations.BuffersAreReadWhenTheCommandRuns : Prop :=
  (∀ s t : State, ∀ off v rest, s.hostOps = .memWrite off 1 v :: rest → step s = .next t →
    t.ks = s.ks ∧ t.blkout = s.blkout) ∧
  ∀ (s : State) (key : Memory) (n : Nat),
    exec (.encrypt n) { s with keybuf := key } = mapNext (fun t => { t with keybuf := key }) (exec (.encrypt n) s) ∧
    exec (.decrypt n) { s with keybuf := key } = mapNext (fun t => { t with keybuf := key }) (exec (.decrypt n) s)

/-- 30_encoding.md R90: on an idle engine the eight writes of LOADBLK leave the block in BLKIN, and the eight reads of
READBLK return BLKOUT in order, one step each (log 3). -/
def Obligations.LoadblkAndReadblkMoveABlock : Prop :=
  ∀ (s : State) (block : Block), s.status.busy = false →
    (∃ ops, assemble (.loadblk block) = some ops ∧ ops.length = 8 ∧
      Host.Core.run core 8 { s with hostOps := ops ++ s.hostOps } = .next { s with blkin := block }) ∧
    (∃ ops, assemble .readblk = some ops ∧ ops.length = 8 ∧
      Host.Core.run core 8 { s with hostOps := ops ++ s.hostOps } =
        .next { s with replies := s.replies ++ s.blkout.toList.map Reply.byte })

/-- 30_encoding.md R90, 10_state.md R34: on an idle engine LOADKEY of at most KEYBUF_BYTES bytes leaves byte i of the
key in KEYBUF[i], and changes nothing else, one step a byte (log 3). -/
def Obligations.LoadkeyFillsTheKeyBuffer : Prop :=
  ∀ (s : State) (key : List Byte), s.status.busy = false → s.part.wf → s.keybuf.wf →
    key.length ≤ s.part.keybufBytes →
    ∃ ops t, assemble (.loadkey key) = some ops ∧
      Host.Core.run core key.length { s with hostOps := ops ++ s.hostOps } = .next t ∧
      t = { s with keybuf := t.keybuf } ∧
      ∀ i, t.keybuf.read i = if h : i < key.length then key[i] else s.keybuf.read i

/-! ## Secrecy and scratch -/

/-- 10_state.md R38, 60_exceptions.md R252: KS and KEYBUF show only through ENCRYPT and DECRYPT. Two states that differ
only in KS, KEYBUF and scratch step to the same refusal or to states that differ only there, whatever the host operation
is but an ENCRYPT or DECRYPT word written to CMD; what the host has read is among what stays equal (replies, log 3). -/
def Obligations.KeyMaterialShowsOnlyThroughTheCipher : Prop :=
  ∀ s u : State, eraseSecrets s = eraseSecrets u → (∀ op rest, s.hostOps = op :: rest → ¬ RunsCipher op) →
    mapNext eraseSecrets (step s) = mapNext eraseSecrets (step u)

/-- 10_state.md R43: the scratch registers are not observable, over runs of any length. -/
def Obligations.ScratchIsNotObservable : Prop :=
  ∀ (n : Nat) (s u : State), eraseScratch s = eraseScratch u →
    mapNext eraseScratch (Host.Core.run core n s) = mapNext eraseScratch (Host.Core.run core n u)

/-! ## Reset and invariants -/

/-- 70_reset_and_hazards.md R270: a reset gives every item the value of its table, from every state. The scratch
registers, which it leaves unspecified, are not named. That the part and the host's own side stay is the model's choice (log 5). -/
def Obligations.ResetGivesTheTableOfValues : Prop :=
  ∀ (s : State) (rest : List HostOp), s.hostOps = .reset :: rest →
    ∃ t, step s = .next t ∧ t.status = ⟨0, false, false, false, false⟩ ∧ t.result = 0 ∧ t.size = 0 ∧ t.rounds = 0 ∧
      (∀ i, t.keybuf.read i = 0) ∧ (∀ i : Fin 8, t.blkin[i] = 0 ∧ t.blkout[i] = 0) ∧
      (∀ q, t.ks.read q = ⟨0, 0, 0⟩) ∧ t.part = s.part ∧ t.hostOps = rest ∧ t.replies = s.replies

/-- The invariant holds at reset, on every part (the reference part of log 1 among them). -/
def Obligations.InvariantAtReset : Prop :=
  (∀ p : Part, p.wf → (State.resetOf p).Inv) ∧ State.reset.Inv

/-- 10_state.md R27, R32, R33, R45: in every state that meets the invariant, THIN = 1 exactly when ROUNDS = 8 while an
instance is configured, ROUNDS is even, SIZE = 1 on a thin instance and ROUNDS = 16·SIZE otherwise, SIZE lies in 1 … LEVEL_MAX, KS is zero from ROUNDS on,
and without an instance SIZE, ROUNDS and THIN are 0. -/
def Obligations.InstanceGeometry : Prop :=
  ∀ s : State, s.Inv →
    (s.status.cfg = true → (s.status.thin = true ↔ s.rounds.toNat = 8) ∧ s.rounds.toNat % 2 = 0 ∧
      (s.status.thin = true → s.size.toNat = 1) ∧
      (s.status.thin = false → s.rounds.toNat = 16 * s.size.toNat) ∧
      1 ≤ s.size.toNat ∧ s.size.toNat ≤ s.part.levelMax) ∧
    (∀ q, s.rounds.toNat ≤ q → s.ks.read q = ⟨0, 0, 0⟩) ∧
    (s.status.cfg = false → s.size = 0 ∧ s.rounds = 0 ∧ s.status.thin = false)

/-- Every step keeps the invariant, whose canonical forms are the model's choice (log 10): 10_state.md R25, R28, R29, R37, R39, R45 and the canonical form of KEYBUF and
KS. -/
def Obligations.EveryStepKeepsTheInvariant : Prop :=
  ∀ s t : State, s.Inv → step s = .next t → t.Inv

/-- 70_reset_and_hazards.md R282: while BUSY = 1 every access but a STATUS read is refused; the WAIT loop of
30_encoding.md R90 goes on while BUSY = 1 and ends after the read that gives BUSY = 0. The refusal is the treatment of
I16 in 93_implementation_defined.md (log 7), and one read a step is the model's choice (log 4). -/
def Obligations.HostDutyWhileBusy : Prop :=
  ∀ (s : State) (op : HostOp) (rest : List HostOp), s.hostOps = op :: rest →
    (s.status.busy = true → (∃ off n v, op = .memWrite off n v) ∨ (∃ off n, op = .memRead off n ∧ ¬ (off = 4 ∧ n = 4)) →
      ∃ e, step s = .refused e) ∧
    (op = .wait → ∃ t, step s = .next t ∧ t.hostOps = (if s.status.busy then op :: rest else rest) ∧
      t = { s with hostOps := t.hostOps, replies := s.replies ++ [.word s.status.word] })
end

