-- ==== Sys2Proof/Laws/Cells.lean ====
section
/-! SUPPORT. The laws of the canonical lists that hold KEYBUF and KS: read after write, frame, canonical form,
and equality by reads. -/

namespace Sys2Proof.Machine

variable {α : Type} {z : α}

theorem Cells.wf_nil (z : α) : Cells.wf z ([] : List (Nat × α)) := ⟨by simp, by simp⟩

theorem Cells.wf_tail {x : Nat × α} {c : List (Nat × α)} (h : Cells.wf z (x :: c)) : Cells.wf z c := by
  simp only [Cells.wf, List.pairwise_cons, List.mem_cons, forall_eq_or_imp] at h ⊢
  exact ⟨h.1.2, h.2.2⟩

@[simp] theorem Cells.read_nil (z : α) (i : Nat) : Cells.read z [] i = z := rfl

theorem Cells.read_cons (z : α) (k : Nat) (v : α) (c : List (Nat × α)) (i : Nat) :
    Cells.read z ((k, v) :: c) i = if k = i then v else Cells.read z c i := rfl

/-- An index below every listed one reads as the unlisted value. -/
theorem Cells.read_of_lt (z : α) {c : List (Nat × α)} {i : Nat} (h : ∀ x ∈ c, i < x.1) : Cells.read z c i = z := by
  induction c with
  | nil => rfl
  | cons x c ih =>
    obtain ⟨k, v⟩ := x
    have hk := h (k, v) (by simp)
    simp only at hk
    rw [Cells.read_cons, if_neg (by omega), ih (fun y hy => h y (by simp [hy]))]

/-- An index at or above every bound of the list reads as the unlisted value. -/
theorem Cells.read_of_bound (z : α) {c : List (Nat × α)} {n i : Nat} (h : ∀ x ∈ c, x.1 < n) (hi : n ≤ i) :
    Cells.read z c i = z := by
  induction c with
  | nil => rfl
  | cons x c ih =>
    obtain ⟨k, v⟩ := x
    have hk := h (k, v) (by simp)
    simp only at hk
    rw [Cells.read_cons, if_neg (by omega), ih (fun y hy => h y (by simp [hy]))]

/-- What a read returns is listed, or is the unlisted value. -/
theorem Cells.read_mem (z : α) (c : List (Nat × α)) (i : Nat) : (i, Cells.read z c i) ∈ c ∨ Cells.read z c i = z := by
  induction c with
  | nil => simp
  | cons x c ih =>
    obtain ⟨k, v⟩ := x
    rw [Cells.read_cons]
    by_cases h : k = i
    · simp [h]
    · rcases ih with ih | ih
      · simp [h, ih]
      · simp [h, ih]

variable [DecidableEq α]

/-- Every entry after a write is the written one or an old one. -/
theorem Cells.mem_write (z : α) {c : List (Nat × α)} {i : Nat} {v : α} {x : Nat × α}
    (h : x ∈ Cells.write z c i v) : x = (i, v) ∨ x ∈ c := by
  induction c with
  | nil =>
    simp only [Cells.write] at h
    split at h <;> simp_all
  | cons y c ih =>
    obtain ⟨k, u⟩ := y
    simp only [Cells.write] at h
    split at h
    · split at h
      · exact .inr h
      · simpa using h
    · split at h
      · split at h
        · exact .inr (by simp [h])
        · rcases List.mem_cons.1 h with h | h
          · exact .inl h
          · exact .inr (by simp [h])
      · rcases List.mem_cons.1 h with h | h
        · exact .inr (by simp [h])
        · rcases ih h with h | h
          · exact .inl h
          · exact .inr (by simp [h])

/-- A write keeps the canonical form. -/
theorem Cells.write_wf {c : List (Nat × α)} (h : Cells.wf z c) (i : Nat) (v : α) :
    Cells.wf z (Cells.write z c i v) := by
  induction c with
  | nil =>
    simp only [Cells.write]
    split
    · exact h
    · rename_i hv
      exact ⟨by simp, by simpa using hv⟩
  | cons x c ih =>
    obtain ⟨k, u⟩ := x
    have ht := Cells.wf_tail h
    have h' := h
    simp only [Cells.wf, List.pairwise_cons, List.mem_cons, forall_eq_or_imp] at h'
    obtain ⟨⟨hk, -⟩, hu, -⟩ := h'
    simp only [Cells.write]
    split
    · split
      · exact h
      · rename_i hik hv
        refine ⟨List.pairwise_cons.2 ⟨?_, h.1⟩, ?_⟩
        · intro y hy
          rcases List.mem_cons.1 hy with rfl | hy
          · exact hik
          · exact lt_trans hik (hk y hy)
        · intro y hy
          rcases List.mem_cons.1 hy with rfl | hy
          · exact hv
          · exact h.2 y hy
    · split
      · rename_i hik
        subst hik
        split
        · exact ht
        · rename_i hv
          refine ⟨List.pairwise_cons.2 ⟨hk, ht.1⟩, ?_⟩
          intro y hy
          rcases List.mem_cons.1 hy with rfl | hy
          · exact hv
          · exact ht.2 y hy
      · rename_i h1 h2
        obtain ⟨ip, in_⟩ := ih ht
        refine ⟨List.pairwise_cons.2 ⟨?_, ip⟩, ?_⟩
        · intro y hy
          rcases Cells.mem_write z hy with rfl | hy
          · show k < i
            omega
          · exact hk y hy
        · intro y hy
          rcases List.mem_cons.1 hy with rfl | hy
          · exact hu
          · exact in_ y hy

/-- Read after write: the written index gives the value, every other index what it gave before. -/
theorem Cells.read_write {c : List (Nat × α)} (h : Cells.wf z c) (i j : Nat) (v : α) :
    Cells.read z (Cells.write z c i v) j = if i = j then v else Cells.read z c j := by
  induction c with
  | nil =>
    simp only [Cells.write]
    split
    · rename_i hv
      simp [hv]
    · simp [Cells.read]
  | cons x c ih =>
    obtain ⟨k, u⟩ := x
    have ht := Cells.wf_tail h
    have hk : ∀ y ∈ c, k < y.1 := by
      have := h.1
      rw [List.pairwise_cons] at this
      exact this.1
    simp only [Cells.write]
    split
    · rename_i hik
      split
      · rename_i hv
        by_cases hij : i = j
        · subst hij
          rw [if_pos rfl, hv]
          refine Cells.read_of_lt z ?_
          intro y hy
          rcases List.mem_cons.1 hy with rfl | hy
          · exact hik
          · exact lt_trans hik (hk y hy)
        · rw [if_neg hij]
      · rfl
    · split
      · rename_i hik
        subst hik
        split
        · rename_i hv
          by_cases hij : i = j
          · subst hij
            rw [if_pos rfl, hv]
            exact Cells.read_of_lt z hk
          · rw [if_neg hij, Cells.read_cons, if_neg hij]
        · rw [Cells.read_cons, Cells.read_cons]
          by_cases hij : i = j <;> simp [hij]
      · rename_i h1 h2
        rw [Cells.read_cons, Cells.read_cons, ih ht]
        by_cases hkj : k = j
        · subst hkj
          rw [if_pos rfl, if_pos rfl, if_neg h2]
        · rw [if_neg hkj, if_neg hkj]

omit [DecidableEq α] in
/-- Two canonical lists that read alike are the same list. -/
theorem Cells.ext {c d : List (Nat × α)} (hc : Cells.wf z c) (hd : Cells.wf z d)
    (h : ∀ i, Cells.read z c i = Cells.read z d i) : c = d := by
  induction c generalizing d with
  | nil =>
    cases d with
    | nil => rfl
    | cons y d =>
      have := h y.1
      rw [Cells.read_nil, show y = (y.1, y.2) from rfl, Cells.read_cons, if_pos rfl] at this
      exact absurd this.symm (hd.2 y (by simp))
  | cons x c ih =>
    have hxc : ∀ y ∈ c, x.1 < y.1 := (List.pairwise_cons.1 hc.1).1
    cases d with
    | nil =>
      have := h x.1
      rw [Cells.read_nil, show x = (x.1, x.2) from rfl, Cells.read_cons, if_pos rfl] at this
      exact absurd this (hc.2 x (by simp))
    | cons y d =>
      have hyd : ∀ w ∈ d, y.1 < w.1 := (List.pairwise_cons.1 hd.1).1
      have hx := h x.1
      have hy := h y.1
      rw [show x = (x.1, x.2) from rfl, show y = (y.1, y.2) from rfl] at hx hy
      simp only [Cells.read_cons, if_true] at hx hy
      have hkey : x.1 = y.1 := by
        rcases lt_trichotomy x.1 y.1 with hlt | heq | hgt
        · rw [if_neg (by omega), Cells.read_of_lt z (fun w hw => lt_trans hlt (hyd w hw))] at hx
          exact absurd hx (hc.2 x (by simp))
        · exact heq
        · rw [if_neg (by omega), Cells.read_of_lt z (fun w hw => lt_trans hgt (hxc w hw))] at hy
          exact absurd hy.symm (hd.2 y (by simp))
      rw [if_pos hkey.symm] at hx
      have hxy : x = y := Prod.ext hkey hx
      subst hxy
      congr 1
      refine ih (Cells.wf_tail hc) (Cells.wf_tail hd) ?_
      intro i
      by_cases hi : x.1 = i
      · subst hi
        rw [Cells.read_of_lt z hxc, Cells.read_of_lt z hyd]
      · have := h i
        rw [show x = (x.1, x.2) from rfl] at this
        simpa only [Cells.read_cons, if_neg hi] using this

theorem Memory.read_write {m : Memory} (h : m.wf) (i j : Nat) (b : Byte) :
    (m.write i b).read j = if i = j then b else m.read j := Cells.read_write h i j b

theorem Memory.write_wf {m : Memory} (h : m.wf) (i : Nat) (b : Byte) : (m.write i b).wf := Cells.write_wf h i b

theorem KeyFile.read_write {ks : KeyFile} (h : ks.wf) (i j : Nat) (k : RoundKey) :
    (ks.write i k).read j = if i = j then k else ks.read j := Cells.read_write h i j k

theorem KeyFile.write_wf {ks : KeyFile} (h : ks.wf) (i : Nat) (k : RoundKey) : (ks.write i k).wf :=
  Cells.write_wf h i k

end Sys2Proof.Machine
end

