-- ==== Sys2Proof/Laws/State.lean ====
section
/-! SUPPORT. One lemma per field per named update of the state and of STATUS. -/

namespace Sys2Proof.Machine

section StatusUpdates

variable (st : Status) (e : ErrCode) (b : Bool)

@[simp] theorem Status.start_err : (st.start).err = st.err := rfl
@[simp] theorem Status.start_cfg : (st.start).cfg = st.cfg := rfl
@[simp] theorem Status.start_thin : (st.start).thin = st.thin := rfl
@[simp] theorem Status.start_eany : (st.start).eany = st.eany := rfl
@[simp] theorem Status.start_busy : (st.start).busy = true := rfl

@[simp] theorem Status.finish_err : (st.finish).err = 0 := rfl
@[simp] theorem Status.finish_cfg : (st.finish).cfg = st.cfg := rfl
@[simp] theorem Status.finish_thin : (st.finish).thin = st.thin := rfl
@[simp] theorem Status.finish_eany : (st.finish).eany = st.eany := rfl
@[simp] theorem Status.finish_busy : (st.finish).busy = false := rfl

@[simp] theorem Status.fail_err : (st.fail e).err = e.code := rfl
@[simp] theorem Status.fail_cfg : (st.fail e).cfg = st.cfg := rfl
@[simp] theorem Status.fail_thin : (st.fail e).thin = st.thin := rfl
@[simp] theorem Status.fail_eany : (st.fail e).eany = true := rfl
@[simp] theorem Status.fail_busy : (st.fail e).busy = false := rfl

@[simp] theorem Status.configure_err : (st.configure b).err = st.err := rfl
@[simp] theorem Status.configure_cfg : (st.configure b).cfg = true := rfl
@[simp] theorem Status.configure_thin : (st.configure b).thin = b := rfl
@[simp] theorem Status.configure_eany : (st.configure b).eany = st.eany := rfl
@[simp] theorem Status.configure_busy : (st.configure b).busy = st.busy := rfl

@[simp] theorem Status.fail_start : st.start.fail e = st.fail e := rfl

@[simp] theorem ErrCode.code_ne_zero : e.code ≠ 0#4 := by cases e <;> decide

theorem ErrCode.code_le : e.code.toNat ≤ 5 := by cases e <;> decide

end StatusUpdates

section StateUpdates

variable (s : State) (e : ErrCode) (g : Geometry) (h : Halves) (n : Nat) (v : Word) (i : Fin 8) (j : Nat) (b : Byte)
  (y : Reply)

@[simp] theorem State.start_part : s.start.part = s.part := rfl
@[simp] theorem State.start_status : s.start.status = s.status.start := rfl
@[simp] theorem State.start_result : s.start.result = s.result := rfl
@[simp] theorem State.start_size : s.start.size = s.size := rfl
@[simp] theorem State.start_rounds : s.start.rounds = s.rounds := rfl
@[simp] theorem State.start_keybuf : s.start.keybuf = s.keybuf := rfl
@[simp] theorem State.start_blkin : s.start.blkin = s.blkin := rfl
@[simp] theorem State.start_blkout : s.start.blkout = s.blkout := rfl
@[simp] theorem State.start_ks : s.start.ks = s.ks := rfl
@[simp] theorem State.start_kb : s.start.kb = s.kb := rfl
@[simp] theorem State.start_l : s.start.l = s.l := rfl
@[simp] theorem State.start_r : s.start.r = s.r := rfl
@[simp] theorem State.start_roundIdx : s.start.roundIdx = s.roundIdx := rfl
@[simp] theorem State.start_hostOps : s.start.hostOps = s.hostOps := rfl
@[simp] theorem State.start_replies : s.start.replies = s.replies := rfl

@[simp] theorem State.finish_part : s.finish.part = s.part := rfl
@[simp] theorem State.finish_status : s.finish.status = s.status.finish := rfl
@[simp] theorem State.finish_result : s.finish.result = s.result := rfl
@[simp] theorem State.finish_size : s.finish.size = s.size := rfl
@[simp] theorem State.finish_rounds : s.finish.rounds = s.rounds := rfl
@[simp] theorem State.finish_keybuf : s.finish.keybuf = s.keybuf := rfl
@[simp] theorem State.finish_blkin : s.finish.blkin = s.blkin := rfl
@[simp] theorem State.finish_blkout : s.finish.blkout = s.blkout := rfl
@[simp] theorem State.finish_ks : s.finish.ks = s.ks := rfl
@[simp] theorem State.finish_kb : s.finish.kb = s.kb := rfl
@[simp] theorem State.finish_l : s.finish.l = s.l := rfl
@[simp] theorem State.finish_r : s.finish.r = s.r := rfl
@[simp] theorem State.finish_roundIdx : s.finish.roundIdx = s.roundIdx := rfl
@[simp] theorem State.finish_hostOps : s.finish.hostOps = s.hostOps := rfl
@[simp] theorem State.finish_replies : s.finish.replies = s.replies := rfl

@[simp] theorem State.raise_part : (s.raise e).part = s.part := rfl
@[simp] theorem State.raise_status : (s.raise e).status = s.status.fail e := rfl
@[simp] theorem State.raise_result : (s.raise e).result = s.result := rfl
@[simp] theorem State.raise_size : (s.raise e).size = s.size := rfl
@[simp] theorem State.raise_rounds : (s.raise e).rounds = s.rounds := rfl
@[simp] theorem State.raise_keybuf : (s.raise e).keybuf = s.keybuf := rfl
@[simp] theorem State.raise_blkin : (s.raise e).blkin = s.blkin := rfl
@[simp] theorem State.raise_blkout : (s.raise e).blkout = s.blkout := rfl
@[simp] theorem State.raise_ks : (s.raise e).ks = s.ks := rfl
@[simp] theorem State.raise_kb : (s.raise e).kb = s.kb := rfl
@[simp] theorem State.raise_l : (s.raise e).l = s.l := rfl
@[simp] theorem State.raise_r : (s.raise e).r = s.r := rfl
@[simp] theorem State.raise_roundIdx : (s.raise e).roundIdx = s.roundIdx := rfl
@[simp] theorem State.raise_hostOps : (s.raise e).hostOps = s.hostOps := rfl
@[simp] theorem State.raise_replies : (s.raise e).replies = s.replies := rfl

@[simp] theorem State.zeroSchedule_part : s.zeroSchedule.part = s.part := rfl
@[simp] theorem State.zeroSchedule_status : s.zeroSchedule.status = s.status := rfl
@[simp] theorem State.zeroSchedule_result : s.zeroSchedule.result = s.result := rfl
@[simp] theorem State.zeroSchedule_size : s.zeroSchedule.size = s.size := rfl
@[simp] theorem State.zeroSchedule_rounds : s.zeroSchedule.rounds = s.rounds := rfl
@[simp] theorem State.zeroSchedule_keybuf : s.zeroSchedule.keybuf = s.keybuf := rfl
@[simp] theorem State.zeroSchedule_blkin : s.zeroSchedule.blkin = s.blkin := rfl
@[simp] theorem State.zeroSchedule_blkout : s.zeroSchedule.blkout = s.blkout := rfl
@[simp] theorem State.zeroSchedule_ks : s.zeroSchedule.ks = [] := rfl
@[simp] theorem State.zeroSchedule_kb : s.zeroSchedule.kb = s.kb := rfl
@[simp] theorem State.zeroSchedule_l : s.zeroSchedule.l = s.l := rfl
@[simp] theorem State.zeroSchedule_r : s.zeroSchedule.r = s.r := rfl
@[simp] theorem State.zeroSchedule_roundIdx : s.zeroSchedule.roundIdx = s.roundIdx := rfl
@[simp] theorem State.zeroSchedule_hostOps : s.zeroSchedule.hostOps = s.hostOps := rfl
@[simp] theorem State.zeroSchedule_replies : s.zeroSchedule.replies = s.replies := rfl

@[simp] theorem State.configure_part : (s.configure g).part = s.part := rfl
@[simp] theorem State.configure_status : (s.configure g).status = s.status.configure g.thin := rfl
@[simp] theorem State.configure_result : (s.configure g).result = s.result := rfl
@[simp] theorem State.configure_size : (s.configure g).size = BitVec.ofNat 32 g.size := rfl
@[simp] theorem State.configure_rounds : (s.configure g).rounds = BitVec.ofNat 32 g.rounds := rfl
@[simp] theorem State.configure_keybuf : (s.configure g).keybuf = s.keybuf := rfl
@[simp] theorem State.configure_blkin : (s.configure g).blkin = s.blkin := rfl
@[simp] theorem State.configure_blkout : (s.configure g).blkout = s.blkout := rfl
@[simp] theorem State.configure_ks : (s.configure g).ks = s.ks := rfl
@[simp] theorem State.configure_kb : (s.configure g).kb = s.kb := rfl
@[simp] theorem State.configure_l : (s.configure g).l = s.l := rfl
@[simp] theorem State.configure_r : (s.configure g).r = s.r := rfl
@[simp] theorem State.configure_roundIdx : (s.configure g).roundIdx = s.roundIdx := rfl
@[simp] theorem State.configure_hostOps : (s.configure g).hostOps = s.hostOps := rfl
@[simp] theorem State.configure_replies : (s.configure g).replies = s.replies := rfl

@[simp] theorem State.storeOutput_part : (s.storeOutput h n).part = s.part := rfl
@[simp] theorem State.storeOutput_status : (s.storeOutput h n).status = s.status := rfl
@[simp] theorem State.storeOutput_result : (s.storeOutput h n).result = s.result := rfl
@[simp] theorem State.storeOutput_size : (s.storeOutput h n).size = s.size := rfl
@[simp] theorem State.storeOutput_rounds : (s.storeOutput h n).rounds = s.rounds := rfl
@[simp] theorem State.storeOutput_keybuf : (s.storeOutput h n).keybuf = s.keybuf := rfl
@[simp] theorem State.storeOutput_blkin : (s.storeOutput h n).blkin = s.blkin := rfl
@[simp] theorem State.storeOutput_blkout : (s.storeOutput h n).blkout = storeBlock h := rfl
@[simp] theorem State.storeOutput_ks : (s.storeOutput h n).ks = s.ks := rfl
@[simp] theorem State.storeOutput_kb : (s.storeOutput h n).kb = s.kb := rfl
@[simp] theorem State.storeOutput_l : (s.storeOutput h n).l = h.l := rfl
@[simp] theorem State.storeOutput_r : (s.storeOutput h n).r = h.r := rfl
@[simp] theorem State.storeOutput_roundIdx : (s.storeOutput h n).roundIdx = n := rfl
@[simp] theorem State.storeOutput_hostOps : (s.storeOutput h n).hostOps = s.hostOps := rfl
@[simp] theorem State.storeOutput_replies : (s.storeOutput h n).replies = s.replies := rfl

@[simp] theorem State.setResult_part : (s.setResult v).part = s.part := rfl
@[simp] theorem State.setResult_status : (s.setResult v).status = s.status := rfl
@[simp] theorem State.setResult_result : (s.setResult v).result = v := rfl
@[simp] theorem State.setResult_size : (s.setResult v).size = s.size := rfl
@[simp] theorem State.setResult_rounds : (s.setResult v).rounds = s.rounds := rfl
@[simp] theorem State.setResult_keybuf : (s.setResult v).keybuf = s.keybuf := rfl
@[simp] theorem State.setResult_blkin : (s.setResult v).blkin = s.blkin := rfl
@[simp] theorem State.setResult_blkout : (s.setResult v).blkout = s.blkout := rfl
@[simp] theorem State.setResult_ks : (s.setResult v).ks = s.ks := rfl
@[simp] theorem State.setResult_kb : (s.setResult v).kb = s.kb := rfl
@[simp] theorem State.setResult_l : (s.setResult v).l = s.l := rfl
@[simp] theorem State.setResult_r : (s.setResult v).r = s.r := rfl
@[simp] theorem State.setResult_roundIdx : (s.setResult v).roundIdx = s.roundIdx := rfl
@[simp] theorem State.setResult_hostOps : (s.setResult v).hostOps = s.hostOps := rfl
@[simp] theorem State.setResult_replies : (s.setResult v).replies = s.replies := rfl

@[simp] theorem State.writeBlkin_part : (s.writeBlkin i b).part = s.part := rfl
@[simp] theorem State.writeBlkin_status : (s.writeBlkin i b).status = s.status := rfl
@[simp] theorem State.writeBlkin_result : (s.writeBlkin i b).result = s.result := rfl
@[simp] theorem State.writeBlkin_size : (s.writeBlkin i b).size = s.size := rfl
@[simp] theorem State.writeBlkin_rounds : (s.writeBlkin i b).rounds = s.rounds := rfl
@[simp] theorem State.writeBlkin_keybuf : (s.writeBlkin i b).keybuf = s.keybuf := rfl
@[simp] theorem State.writeBlkin_blkin : (s.writeBlkin i b).blkin = s.blkin.set i b := rfl
@[simp] theorem State.writeBlkin_blkout : (s.writeBlkin i b).blkout = s.blkout := rfl
@[simp] theorem State.writeBlkin_ks : (s.writeBlkin i b).ks = s.ks := rfl
@[simp] theorem State.writeBlkin_kb : (s.writeBlkin i b).kb = s.kb := rfl
@[simp] theorem State.writeBlkin_l : (s.writeBlkin i b).l = s.l := rfl
@[simp] theorem State.writeBlkin_r : (s.writeBlkin i b).r = s.r := rfl
@[simp] theorem State.writeBlkin_roundIdx : (s.writeBlkin i b).roundIdx = s.roundIdx := rfl
@[simp] theorem State.writeBlkin_hostOps : (s.writeBlkin i b).hostOps = s.hostOps := rfl
@[simp] theorem State.writeBlkin_replies : (s.writeBlkin i b).replies = s.replies := rfl

@[simp] theorem State.writeKeybuf_part : (s.writeKeybuf j b).part = s.part := rfl
@[simp] theorem State.writeKeybuf_status : (s.writeKeybuf j b).status = s.status := rfl
@[simp] theorem State.writeKeybuf_result : (s.writeKeybuf j b).result = s.result := rfl
@[simp] theorem State.writeKeybuf_size : (s.writeKeybuf j b).size = s.size := rfl
@[simp] theorem State.writeKeybuf_rounds : (s.writeKeybuf j b).rounds = s.rounds := rfl
@[simp] theorem State.writeKeybuf_keybuf : (s.writeKeybuf j b).keybuf = s.keybuf.write j b := rfl
@[simp] theorem State.writeKeybuf_blkin : (s.writeKeybuf j b).blkin = s.blkin := rfl
@[simp] theorem State.writeKeybuf_blkout : (s.writeKeybuf j b).blkout = s.blkout := rfl
@[simp] theorem State.writeKeybuf_ks : (s.writeKeybuf j b).ks = s.ks := rfl
@[simp] theorem State.writeKeybuf_kb : (s.writeKeybuf j b).kb = s.kb := rfl
@[simp] theorem State.writeKeybuf_l : (s.writeKeybuf j b).l = s.l := rfl
@[simp] theorem State.writeKeybuf_r : (s.writeKeybuf j b).r = s.r := rfl
@[simp] theorem State.writeKeybuf_roundIdx : (s.writeKeybuf j b).roundIdx = s.roundIdx := rfl
@[simp] theorem State.writeKeybuf_hostOps : (s.writeKeybuf j b).hostOps = s.hostOps := rfl
@[simp] theorem State.writeKeybuf_replies : (s.writeKeybuf j b).replies = s.replies := rfl

@[simp] theorem State.reply_part : (s.reply y).part = s.part := rfl
@[simp] theorem State.reply_status : (s.reply y).status = s.status := rfl
@[simp] theorem State.reply_result : (s.reply y).result = s.result := rfl
@[simp] theorem State.reply_size : (s.reply y).size = s.size := rfl
@[simp] theorem State.reply_rounds : (s.reply y).rounds = s.rounds := rfl
@[simp] theorem State.reply_keybuf : (s.reply y).keybuf = s.keybuf := rfl
@[simp] theorem State.reply_blkin : (s.reply y).blkin = s.blkin := rfl
@[simp] theorem State.reply_blkout : (s.reply y).blkout = s.blkout := rfl
@[simp] theorem State.reply_ks : (s.reply y).ks = s.ks := rfl
@[simp] theorem State.reply_kb : (s.reply y).kb = s.kb := rfl
@[simp] theorem State.reply_l : (s.reply y).l = s.l := rfl
@[simp] theorem State.reply_r : (s.reply y).r = s.r := rfl
@[simp] theorem State.reply_roundIdx : (s.reply y).roundIdx = s.roundIdx := rfl
@[simp] theorem State.reply_hostOps : (s.reply y).hostOps = s.hostOps := rfl
@[simp] theorem State.reply_replies : (s.reply y).replies = s.replies ++ [y] := rfl

@[simp] theorem State.expandKey_part : s.expandKey.part = s.part := by unfold State.expandKey; split <;> rfl
@[simp] theorem State.expandKey_status : s.expandKey.status = s.status := by unfold State.expandKey; split <;> rfl
@[simp] theorem State.expandKey_result : s.expandKey.result = s.result := by unfold State.expandKey; split <;> rfl
@[simp] theorem State.expandKey_size : s.expandKey.size = s.size := by unfold State.expandKey; split <;> rfl
@[simp] theorem State.expandKey_rounds : s.expandKey.rounds = s.rounds := by unfold State.expandKey; split <;> rfl
@[simp] theorem State.expandKey_keybuf : s.expandKey.keybuf = s.keybuf := by unfold State.expandKey; split <;> rfl
@[simp] theorem State.expandKey_blkin : s.expandKey.blkin = s.blkin := by unfold State.expandKey; split <;> rfl
@[simp] theorem State.expandKey_blkout : s.expandKey.blkout = s.blkout := by unfold State.expandKey; split <;> rfl
@[simp] theorem State.expandKey_l : s.expandKey.l = s.l := by unfold State.expandKey; split <;> rfl
@[simp] theorem State.expandKey_r : s.expandKey.r = s.r := by unfold State.expandKey; split <;> rfl
@[simp] theorem State.expandKey_hostOps : s.expandKey.hostOps = s.hostOps := by unfold State.expandKey; split <;> rfl
@[simp] theorem State.expandKey_replies : s.expandKey.replies = s.replies := by unfold State.expandKey; split <;> rfl

@[simp] theorem waitOnce_part : (waitOnce s).part = s.part := by unfold waitOnce; split <;> rfl
@[simp] theorem waitOnce_status : (waitOnce s).status = s.status := by unfold waitOnce; split <;> rfl
@[simp] theorem waitOnce_result : (waitOnce s).result = s.result := by unfold waitOnce; split <;> rfl
@[simp] theorem waitOnce_size : (waitOnce s).size = s.size := by unfold waitOnce; split <;> rfl
@[simp] theorem waitOnce_rounds : (waitOnce s).rounds = s.rounds := by unfold waitOnce; split <;> rfl
@[simp] theorem waitOnce_keybuf : (waitOnce s).keybuf = s.keybuf := by unfold waitOnce; split <;> rfl
@[simp] theorem waitOnce_blkin : (waitOnce s).blkin = s.blkin := by unfold waitOnce; split <;> rfl
@[simp] theorem waitOnce_blkout : (waitOnce s).blkout = s.blkout := by unfold waitOnce; split <;> rfl
@[simp] theorem waitOnce_ks : (waitOnce s).ks = s.ks := by unfold waitOnce; split <;> rfl
@[simp] theorem waitOnce_kb : (waitOnce s).kb = s.kb := by unfold waitOnce; split <;> rfl
@[simp] theorem waitOnce_l : (waitOnce s).l = s.l := by unfold waitOnce; split <;> rfl
@[simp] theorem waitOnce_r : (waitOnce s).r = s.r := by unfold waitOnce; split <;> rfl
@[simp] theorem waitOnce_roundIdx : (waitOnce s).roundIdx = s.roundIdx := by unfold waitOnce; split <;> rfl

@[simp] theorem resetEngine_part : (resetEngine s).part = s.part := rfl
@[simp] theorem resetEngine_status : (resetEngine s).status = (State.resetOf s.part).status := rfl
@[simp] theorem resetEngine_result : (resetEngine s).result = (State.resetOf s.part).result := rfl
@[simp] theorem resetEngine_size : (resetEngine s).size = (State.resetOf s.part).size := rfl
@[simp] theorem resetEngine_rounds : (resetEngine s).rounds = (State.resetOf s.part).rounds := rfl
@[simp] theorem resetEngine_keybuf : (resetEngine s).keybuf = (State.resetOf s.part).keybuf := rfl
@[simp] theorem resetEngine_blkin : (resetEngine s).blkin = (State.resetOf s.part).blkin := rfl
@[simp] theorem resetEngine_blkout : (resetEngine s).blkout = (State.resetOf s.part).blkout := rfl
@[simp] theorem resetEngine_ks : (resetEngine s).ks = (State.resetOf s.part).ks := rfl
@[simp] theorem resetEngine_kb : (resetEngine s).kb = (State.resetOf s.part).kb := rfl
@[simp] theorem resetEngine_l : (resetEngine s).l = (State.resetOf s.part).l := rfl
@[simp] theorem resetEngine_r : (resetEngine s).r = (State.resetOf s.part).r := rfl
@[simp] theorem resetEngine_roundIdx : (resetEngine s).roundIdx = (State.resetOf s.part).roundIdx := rfl
@[simp] theorem resetEngine_hostOps : (resetEngine s).hostOps = s.hostOps := rfl
@[simp] theorem resetEngine_replies : (resetEngine s).replies = s.replies := rfl

/-- Raising an error inside a started command is raising it before: BUSY ends at 0 either way. -/
@[simp] theorem State.raise_start : s.start.raise e = s.raise e := rfl

theorem illegalCommand_eq_raise : illegalCommand s = s.raise .illegalCommand := rfl

end StateUpdates

end Sys2Proof.Machine
end

