-- ==== Sys2Proof/Laws/Ops.lean ====
section
/-! SUPPORT. What the shared operations can do, said once each: running a command, the operand rules, an access to
the port, one step. -/

namespace Sys2Proof.Machine

/-- How a command that needs an instance fails without one. -/
theorem runCommand_noInstance {rule : State → Except ErrCode State} {s : State} (h : s.status.cfg = false) :
    runCommand true rule s = .next (s.raise .noInstance) := by
  simp [runCommand, h]

/-- A command with an instance, or one that needs none, ends as its rule says. -/
theorem runCommand_ready {need : Bool} {rule : State → Except ErrCode State} {s : State}
    (h : need = true → s.status.cfg = true) :
    runCommand need rule s =
      match rule s.start with
      | .ok t => .next t.finish
      | .error e => .next (s.raise e) := by
  cases need
  · cases hr : rule s.start <;> simp [runCommand, hr]
  · cases hr : rule s.start <;> simp [runCommand, h rfl, hr]

/-- Everything a command can do: fail for want of an instance, end as its rule ends, or fail as its rule fails. -/
theorem runCommand_cases {need : Bool} {rule : State → Except ErrCode State} {s t : State}
    (h : runCommand need rule s = .next t) :
    (need = true ∧ s.status.cfg = false ∧ t = s.raise .noInstance) ∨
    ((need = true → s.status.cfg = true) ∧ ∃ u, rule s.start = .ok u ∧ t = u.finish) ∨
    ((need = true → s.status.cfg = true) ∧ ∃ e, rule s.start = .error e ∧ t = s.raise e) := by
  by_cases hn : need = true ∧ s.status.cfg = false
  · obtain ⟨rfl, hc⟩ := hn
    rw [runCommand_noInstance hc] at h
    exact .inl ⟨rfl, hc, (Host.Outcome.next.inj h).symm⟩
  · have hr : need = true → s.status.cfg = true := fun hh => by simpa [hh] using hn
    rw [runCommand_ready hr] at h
    split at h
    · rename_i u hu
      exact .inr (.inl ⟨hr, u, hu, (Host.Outcome.next.inj h).symm⟩)
    · rename_i e he
      exact .inr (.inr ⟨hr, e, he, (Host.Outcome.next.inj h).symm⟩)

/-- What a level selects. -/
theorem levelGeometry_cases (p : Part) (level : Int) :
    (level < 1 ∧ levelGeometry p level = .ok ⟨1, 8, true⟩) ∨
    (1 ≤ level ∧ level ≤ p.levelMax ∧ levelGeometry p level = .ok ⟨level.toNat, 16 * level.toNat, false⟩) ∨
    ((p.levelMax : Int) < level ∧ 1 ≤ level ∧ levelGeometry p level = .error .invalidLevel) := by
  unfold levelGeometry
  by_cases h1 : level < 1
  · exact .inl ⟨h1, by rw [if_pos h1]⟩
  · by_cases h2 : level > p.levelMax
    · exact .inr (.inr ⟨h2, by omega, by rw [if_neg h1, if_pos h2]⟩)
    · exact .inr (.inl ⟨by omega, by omega, by rw [if_neg h1, if_neg h2]⟩)

/-- The exits of CONSTRUCT's rule. -/
theorem constructRule_cases (level : Int) (s : State) :
    (∃ g, levelGeometry s.part level = .ok g ∧ constructRule level s = .ok (s.configure g).zeroSchedule) ∨
    (levelGeometry s.part level = .error .invalidLevel ∧ constructRule level s = .error .invalidLevel) := by
  rcases levelGeometry_cases s.part level with ⟨-, h⟩ | ⟨-, -, h⟩ | ⟨-, -, h⟩
  · exact .inl ⟨_, h, by rw [constructRule, h]⟩
  · exact .inl ⟨_, h, by rw [constructRule, h]⟩
  · exact .inr ⟨h, by rw [constructRule, h]⟩

/-- The exits of SETKEY's rule. -/
theorem setkeyRule_cases (n : Nat) (s : State) :
    (n = 8 * s.size.toNat ∧ setkeyRule n s = .ok s.expandKey) ∨
    (n ≠ 8 * s.size.toNat ∧ setkeyRule n s = .error .invalidKeyLength) := by
  by_cases h : n = 8 * s.size.toNat
  · exact .inl ⟨h, by simp [setkeyRule, keyLengthOk, h]⟩
  · exact .inr ⟨h, by simp [setkeyRule, keyLengthOk, h]⟩

/-- The exits of ENCRYPT's rule. -/
theorem encryptRule_cases (n : Nat) (s : State) :
    (n = 8 ∧ encryptRule n s =
      .ok (s.storeOutput (encryptRounds s.ks s.rounds.toNat (loadBlock s.blkin)) (s.rounds.toNat - 2))) ∨
    (n ≠ 8 ∧ encryptRule n s = .error .invalidBlockLength) := by
  by_cases h : n = 8
  · exact .inl ⟨h, by simp [encryptRule, blockLengthOk, h]⟩
  · exact .inr ⟨h, by simp [encryptRule, blockLengthOk, h]⟩

/-- The exits of DECRYPT's rule. -/
theorem decryptRule_cases (n : Nat) (s : State) :
    (n = 8 ∧ decryptRule n s =
      .ok (s.storeOutput (decryptRounds s.ks s.rounds.toNat (loadBlock s.blkin)) 1)) ∨
    (n ≠ 8 ∧ decryptRule n s = .error .invalidBlockLength) := by
  by_cases h : n = 8
  · exact .inl ⟨h, by simp [decryptRule, blockLengthOk, h]⟩
  · exact .inr ⟨h, by simp [decryptRule, blockLengthOk, h]⟩

/-- The ports an access of a given width reaches, each with its offset. -/
theorem portAt_ok {p : Part} {off : Offset} {n : Nat} {port : Port} (h : portAt p off n = .ok port) :
    (n = 4 ∧ off.toNat % 4 = 0 ∧ off.toNat < 0x014 ∧ port = registerAt (off.toNat / 4)) ∨
    (n = 1 ∧ 0x020 ≤ off.toNat ∧ off.toNat < 0x028 ∧ port = .blkin (Fin.ofNat 8 (off.toNat - 0x020))) ∨
    (n = 1 ∧ 0x028 ≤ off.toNat ∧ off.toNat < 0x030 ∧ port = .blkout (Fin.ofNat 8 (off.toNat - 0x028))) ∨
    (n = 1 ∧ 0x100 ≤ off.toNat ∧ off.toNat - 0x100 < p.keybufBytes ∧ port = .keybuf (off.toNat - 0x100)) := by
  unfold portAt admitWidth at h
  repeat' split at h
  all_goals first
    | cases h; done
    | (cases h; omega)
    | (injection h with h; subst h; simp; omega)

/-- The one access that reaches CMD: 4 bytes at 0x000 (20_memory.md R61, R62). -/
theorem portAt_cmd {p : Part} {off : Offset} {n : Nat} (h : portAt p off n = .ok .cmd) : off = 0x000 ∧ n = 4 := by
  rcases portAt_ok h with ⟨hn, h4, hlt, hp⟩ | ⟨_, _, _, h⟩ | ⟨_, _, _, h⟩ | ⟨_, _, _, h⟩
  · refine ⟨BitVec.eq_of_toNat_eq ?_, hn⟩
    unfold registerAt at hp
    split at hp <;> try cases hp
    simp
    omega
  all_goals cases h

/-- Everything one host operation can do. -/
theorem runHostOp_cases {op : HostOp} {s t : State} (h : runHostOp op s = .next t) :
    (∃ off n port, op = .memRead off n ∧ portAt s.part off n = .ok port ∧ t = s.reply (portValue s port)) ∨
    (∃ off n w, op = .memWrite off n w ∧ portAt s.part off n = .ok .cmd ∧ executeWord w s = .next t) ∨
    (∃ off n w i, op = .memWrite off n w ∧ portAt s.part off n = .ok (.blkin i) ∧
      t = s.writeBlkin i (w.setWidth 8)) ∨
    (∃ off n w i, op = .memWrite off n w ∧ portAt s.part off n = .ok (.keybuf i) ∧
      t = s.writeKeybuf i (w.setWidth 8)) ∨
    (op = .wait ∧ t = waitOnce s) ∨
    (op = .reset ∧ t = resetEngine s) := by
  unfold runHostOp at h
  split at h
  · cases op with
    | memRead off n =>
      simp only [memRead] at h
      split at h
      · cases h
      · rename_i port hp
        exact .inl ⟨off, n, port, rfl, hp, (Host.Outcome.next.inj h).symm⟩
    | memWrite off n w =>
      simp only [memWrite] at h
      split at h
      · cases h
      · rename_i port hp
        cases port with
        | cmd => exact .inr (.inl ⟨off, n, w, rfl, hp, h⟩)
        | blkin i => exact .inr (.inr (.inl ⟨off, n, w, i, rfl, hp, (Host.Outcome.next.inj h).symm⟩))
        | keybuf i => exact .inr (.inr (.inr (.inl ⟨off, n, w, i, rfl, hp, (Host.Outcome.next.inj h).symm⟩)))
        | status => cases h
        | result => cases h
        | size => cases h
        | rounds => cases h
        | blkout i => cases h
    | wait => exact .inr (.inr (.inr (.inr (.inl ⟨rfl, (Host.Outcome.next.inj h).symm⟩))))
    | reset => exact .inr (.inr (.inr (.inr (.inr ⟨rfl, (Host.Outcome.next.inj h).symm⟩))))
  · cases h

/-- A step idles, or takes the oldest host operation. -/
theorem step_cases {s t : State} (h : step s = .next t) :
    (s.hostOps = [] ∧ t = s) ∨
    ∃ op rest, s.hostOps = op :: rest ∧ runHostOp op { s with hostOps := rest } = .next t := by
  unfold step at h
  split at h
  · rename_i hn
    exact .inl ⟨hn, (Host.Outcome.next.inj h).symm⟩
  · rename_i op rest ho
    exact .inr ⟨op, rest, ho, h⟩

/-- The step on a given oldest operation. -/
theorem step_cons {s : State} {op : HostOp} {rest : List HostOp} (h : s.hostOps = op :: rest) :
    step s = runHostOp op { s with hostOps := rest } := by
  unfold step
  rw [h]

/-- A command word's two ends. -/
theorem executeWord_cases (w : Word) (s : State) :
    (∃ i, decode w = .ok i ∧ executeWord w s = exec i s) ∨
    (∃ e, decode w = .error e ∧ executeWord w s = .next (s.raise .illegalCommand)) := by
  unfold executeWord
  cases h : decode w with
  | ok i => exact .inl ⟨i, rfl, rfl⟩
  | error e => exact .inr ⟨e, rfl, rfl⟩

end Sys2Proof.Machine
end

