-- ==== Sys2Proof/Laws/Commands.lean ====
section
/-! SUPPORT. One equation per command: the state it ends in, by the checks of 60_exceptions.md R247 in their order. -/

namespace Sys2Proof.Machine

/-- Starting a command does not show once it has ended. -/
theorem State.expandKey_start_finish (s : State) : s.start.expandKey.finish = s.expandKey.finish := by
  cases h : s.status.thin <;>
    simp only [State.expandKey, State.start_status, Status.start_thin, h, Bool.false_eq_true, if_true, if_false] <;> rfl

theorem exec_construct (level : Int) (s : State) :
    exec (.construct level) s = .next
      (if level < 1 then (s.configure ⟨1, 8, true⟩).zeroSchedule.finish
       else if (s.part.levelMax : Int) < level then s.raise .invalidLevel
       else (s.configure ⟨level.toNat, 16 * level.toNat, false⟩).zeroSchedule.finish) := by
  simp only [exec, execConstruct]
  rw [runCommand_ready (by simp)]
  simp only [constructRule, State.start_part, levelGeometry, gt_iff_lt]
  by_cases h1 : level < 1
  · simp only [if_pos h1]
    rfl
  · by_cases h2 : (s.part.levelMax : Int) < level
    · simp only [if_neg h1, if_pos h2]
    · simp only [if_neg h1, if_neg h2]
      rfl

theorem exec_setkey (n : Nat) (s : State) :
    exec (.setkey n) s = .next
      (if s.status.cfg = false then s.raise .noInstance
       else if n = 8 * s.size.toNat then s.expandKey.finish
       else s.raise .invalidKeyLength) := by
  simp only [exec, execSetkey]
  by_cases hc : s.status.cfg = false
  · rw [runCommand_noInstance hc, if_pos hc]
  · rw [runCommand_ready (fun _ => by simpa using hc), if_neg hc]
    rcases setkeyRule_cases n s.start with ⟨h, hr⟩ | ⟨h, hr⟩ <;> rw [State.start_size] at h
    · rw [hr, if_pos h, ← State.expandKey_start_finish]
    · rw [hr, if_neg h]

theorem exec_clear (s : State) :
    exec .clear s = .next (if s.status.cfg = false then s.raise .noInstance else s.zeroSchedule.finish) := by
  simp only [exec, execClear]
  by_cases hc : s.status.cfg = false
  · rw [runCommand_noInstance hc, if_pos hc]
  · rw [runCommand_ready (fun _ => by simpa using hc), if_neg hc]
    rfl

theorem exec_encrypt (n : Nat) (s : State) :
    exec (.encrypt n) s = .next
      (if s.status.cfg = false then s.raise .noInstance
       else if n = 8 then
         (s.storeOutput (encryptRounds s.ks s.rounds.toNat (loadBlock s.blkin)) (s.rounds.toNat - 2)).finish
       else s.raise .invalidBlockLength) := by
  simp only [exec, execEncrypt]
  by_cases hc : s.status.cfg = false
  · rw [runCommand_noInstance hc, if_pos hc]
  · rw [runCommand_ready (fun _ => by simpa using hc), if_neg hc]
    rcases encryptRule_cases n s.start with ⟨h, hr⟩ | ⟨h, hr⟩
    · rw [hr, if_pos h]
      rfl
    · rw [hr, if_neg h]

theorem exec_decrypt (n : Nat) (s : State) :
    exec (.decrypt n) s = .next
      (if s.status.cfg = false then s.raise .noInstance
       else if n = 8 then (s.storeOutput (decryptRounds s.ks s.rounds.toNat (loadBlock s.blkin)) 1).finish
       else s.raise .invalidBlockLength) := by
  simp only [exec, execDecrypt]
  by_cases hc : s.status.cfg = false
  · rw [runCommand_noInstance hc, if_pos hc]
  · rw [runCommand_ready (fun _ => by simpa using hc), if_neg hc]
    rcases decryptRule_cases n s.start with ⟨h, hr⟩ | ⟨h, hr⟩
    · rw [hr, if_pos h]
      rfl
    · rw [hr, if_neg h]

theorem exec_keysize (s : State) :
    exec .keysize s = .next
      (if s.status.cfg = false then s.raise .noInstance
       else (s.setResult (BitVec.ofNat 32 (8 * s.size.toNat))).finish) := by
  simp only [exec, execKeysize]
  by_cases hc : s.status.cfg = false
  · rw [runCommand_noInstance hc, if_pos hc]
  · rw [runCommand_ready (fun _ => by simpa using hc), if_neg hc]
    rfl

theorem exec_blocksize (s : State) : exec .blocksize s = .next (s.setResult 8).finish := by
  simp only [exec, execBlocksize]
  rw [runCommand_ready (by simp)]
  rfl

end Sys2Proof.Machine
end

