-- ==== Sys2Proof/Laws/Encoding.lean ====
section
/-! SUPPORT. The fields of a command word as numbers, the fields of an encoded word, and what operands survive the
24-bit field. -/

namespace Sys2Proof

theorem opField_toNat (w : Word) : (opField w).toNat = w.toNat % 16 := by
  simp [opField, BitVec.extractLsb'_toNat]

theorem rsvField_toNat (w : Word) : (rsvField w).toNat = w.toNat / 16 % 16 := by
  simp [rsvField, BitVec.extractLsb'_toNat, Nat.shiftRight_eq_div_pow]

theorem argField_toNat (w : Word) : (argField w).toNat = w.toNat / 256 := by
  have := w.isLt
  simp only [argField, BitVec.extractLsb'_toNat, Nat.shiftRight_eq_div_pow]
  omega

theorem encode_toNat (i : Instr) : (encode i).toNat = i.arg.toNat * 256 + i.op.toNat := by
  have h1 := i.op.isLt
  simp only [encode, BitVec.toNat_append, BitVec.ofNat_eq_ofNat, BitVec.toNat_zero, Nat.or_zero]
  rw [← Nat.shiftLeft_add_eq_or_of_lt h1]
  simp only [Nat.shiftLeft_eq]
  omega

@[simp] theorem opField_encode (i : Instr) : opField (encode i) = i.op := by
  apply BitVec.eq_of_toNat_eq
  have := i.op.isLt
  rw [opField_toNat, encode_toNat]
  omega

@[simp] theorem rsvField_encode (i : Instr) : rsvField (encode i) = 0 := by
  apply BitVec.eq_of_toNat_eq
  have := i.op.isLt
  rw [rsvField_toNat, encode_toNat]
  simp
  omega

@[simp] theorem argField_encode (i : Instr) : argField (encode i) = i.arg := by
  apply BitVec.eq_of_toNat_eq
  have := i.op.isLt
  rw [argField_toNat, encode_toNat]
  omega

/-- An unsigned operand in range survives the ARG field. -/
theorem lengthOperand_ofNat {n : Nat} (h : lengthInRange n = true) : lengthOperand (BitVec.ofNat 24 n) = n := by
  simp only [lengthInRange, decide_eq_true_eq] at h
  simp only [lengthOperand, BitVec.toNat_setWidth, BitVec.toNat_ofNat]
  omega

/-- The length operand is ARG itself. -/
theorem lengthOperand_eq (arg : BitVec 24) : lengthOperand arg = arg.toNat := by
  have := arg.isLt
  simp only [lengthOperand, BitVec.toNat_setWidth]
  omega

/-- The level operand is ARG read as a signed number. -/
theorem levelOperand_eq (arg : BitVec 24) : levelOperand arg = arg.toInt := by
  rw [levelOperand, BitVec.toInt_signExtend_of_le (by decide)]

/-- A signed operand in range survives the ARG field. -/
theorem levelOperand_ofInt {level : Int} (h : levelInRange level = true) :
    levelOperand (BitVec.ofInt 24 level) = level := by
  simp only [levelInRange, decide_eq_true_eq] at h
  rw [levelOperand_eq, BitVec.toInt_ofInt, Int.bmod_def]
  norm_num
  omega

/-- Everything the decoder can answer, with the fields that make it answer so. -/
theorem decode_cases (w : Word) :
    (rsvField w ≠ 0 ∧ decode w = .error .reservedField) ∨
    (rsvField w = 0 ∧
      ((opField w = 1 ∧ decode w = .ok (.construct (levelOperand (argField w)))) ∨
       (opField w = 2 ∧ decode w = .ok (.setkey (lengthOperand (argField w)))) ∨
       (opField w = 3 ∧ argField w = 0 ∧ decode w = .ok .clear) ∨
       (opField w = 4 ∧ decode w = .ok (.encrypt (lengthOperand (argField w)))) ∨
       (opField w = 5 ∧ decode w = .ok (.decrypt (lengthOperand (argField w)))) ∨
       (opField w = 6 ∧ argField w = 0 ∧ decode w = .ok .keysize) ∨
       (opField w = 7 ∧ argField w = 0 ∧ decode w = .ok .blocksize) ∨
       ((opField w = 3 ∨ opField w = 6 ∨ opField w = 7) ∧ argField w ≠ 0 ∧ decode w = .error .unusedArg) ∨
       ((opField w = 0 ∨ 8 ≤ (opField w).toNat) ∧ decode w = .error .reservedOp))) := by
  by_cases hr : rsvField w = 0
  · refine .inr ⟨hr, ?_⟩
    have hop : ∀ op : BitVec 4, op = 1 ∨ op = 2 ∨ op = 3 ∨ op = 4 ∨ op = 5 ∨ op = 6 ∨ op = 7 ∨ op = 0 ∨ 8 ≤ op.toNat := by
      decide
    unfold decode noOperand
    rw [if_neg (not_not.2 hr)]
    rcases hop (opField w) with h | h | h | h | h | h | h | h | h
    · simp [h]
    · simp [h]
    · by_cases ha : argField w = 0#24 <;> simp [h, ha]
    · simp [h]
    · simp [h]
    · by_cases ha : argField w = 0#24 <;> simp [h, ha]
    · by_cases ha : argField w = 0#24 <;> simp [h, ha]
    · simp [h]
    · have hne : ∀ k : Nat, k < 8 → opField w ≠ BitVec.ofNat 4 k := by
        intro k hk he
        rw [he, BitVec.toNat_ofNat] at h
        omega
      have h1 := hne 1 (by omega)
      have h2 := hne 2 (by omega)
      have h3 := hne 3 (by omega)
      have h4 := hne 4 (by omega)
      have h5 := hne 5 (by omega)
      have h6 := hne 6 (by omega)
      have h7 := hne 7 (by omega)
      simp [h, h1, h2, h3, h4, h5, h6, h7]
  · exact .inl ⟨hr, by rw [decode, if_pos hr]⟩

end Sys2Proof
end

