-- ==== Sys2Proof/Laws/Feistel.lean ====
section
/-! SUPPORT. The block byte order and the Feistel loops: loading and storing undo each other, and one pair of rounds
more. -/

namespace Sys2Proof.Machine

/-- Four bytes, most-significant first, and back. -/
theorem bytes_of_word (v : Word) : byteOf v 0 ++ byteOf v 1 ++ byteOf v 2 ++ byteOf v 3 = v := by
  apply BitVec.eq_of_toNat_eq
  have := v.isLt
  simp only [byteOf, BitVec.toNat_append, BitVec.extractLsb'_toNat, Nat.shiftRight_eq_div_pow]
  rw [← Nat.shiftLeft_add_eq_or_of_lt (Nat.mod_lt _ (by norm_num)),
    ← Nat.shiftLeft_add_eq_or_of_lt (Nat.mod_lt _ (by norm_num)),
    ← Nat.shiftLeft_add_eq_or_of_lt (Nat.mod_lt _ (by norm_num))]
  simp only [Nat.shiftLeft_eq]
  omega

theorem word_of_bytes_toNat (a b c d : Byte) :
    (a ++ b ++ c ++ d : BitVec 32).toNat = a.toNat * 2 ^ 24 + b.toNat * 2 ^ 16 + c.toNat * 2 ^ 8 + d.toNat := by
  have hb := b.isLt
  have hc := c.isLt
  have hd := d.isLt
  simp only [BitVec.toNat_append]
  rw [← Nat.shiftLeft_add_eq_or_of_lt hd, ← Nat.shiftLeft_add_eq_or_of_lt hc, ← Nat.shiftLeft_add_eq_or_of_lt hb]
  simp only [Nat.shiftLeft_eq]
  omega

theorem byteOf_toNat (v : Word) (i : Nat) : (byteOf v i).toNat = v.toNat / 2 ^ (24 - 8 * i) % 256 := by
  simp [byteOf, BitVec.extractLsb'_toNat, Nat.shiftRight_eq_div_pow]

theorem byte_of_word_of_bytes (a b c d : Byte) :
    byteOf (a ++ b ++ c ++ d : BitVec 32) 0 = a ∧ byteOf (a ++ b ++ c ++ d : BitVec 32) 1 = b ∧
    byteOf (a ++ b ++ c ++ d : BitVec 32) 2 = c ∧ byteOf (a ++ b ++ c ++ d : BitVec 32) 3 = d := by
  have ha := a.isLt
  have hb := b.isLt
  have hc := c.isLt
  have hd := d.isLt
  refine ⟨?_, ?_, ?_, ?_⟩ <;> apply BitVec.eq_of_toNat_eq <;> rw [byteOf_toNat, word_of_bytes_toNat] <;> omega

/-- Storing and loading again exchanges the halves (45_cipher_engine.md R212). -/
@[simp] theorem loadBlock_storeBlock (h : Halves) : loadBlock (storeBlock h) = ⟨h.r, h.l⟩ := by
  have e (i : Nat) (hi : i < 8) : (storeBlock h)[i] = (#v[byteOf h.r 0, byteOf h.r 1, byteOf h.r 2, byteOf h.r 3,
     byteOf h.l 0, byteOf h.l 1, byteOf h.l 2, byteOf h.l 3])[i] := rfl
  unfold loadBlock
  simp only [e, Vector.getElem_mk, List.getElem_toArray, List.getElem_cons_zero, List.getElem_cons_succ,
    bytes_of_word]

/-- A block is its eight bytes. -/
theorem block_eq (b : Block) : b = #v[b[0], b[1], b[2], b[3], b[4], b[5], b[6], b[7]] := by
  ext i hi
  have : i = 0 ∨ i = 1 ∨ i = 2 ∨ i = 3 ∨ i = 4 ∨ i = 5 ∨ i = 6 ∨ i = 7 := by omega
  rcases this with rfl | rfl | rfl | rfl | rfl | rfl | rfl | rfl <;> rfl

theorem loadBlock_bytes (a b c d e f g h : Byte) :
    loadBlock #v[a, b, c, d, e, f, g, h] = ⟨a ++ b ++ c ++ d, e ++ f ++ g ++ h⟩ := rfl

theorem storeBlock_words (a b c d e f g h : Byte) :
    storeBlock ⟨a ++ b ++ c ++ d, e ++ f ++ g ++ h⟩ = #v[e, f, g, h, a, b, c, d] := by
  obtain ⟨h1, h2, h3, h4⟩ := byte_of_word_of_bytes a b c d
  obtain ⟨h5, h6, h7, h8⟩ := byte_of_word_of_bytes e f g h
  simp only [storeBlock, h1, h2, h3, h4, h5, h6, h7, h8]

/-- Loading a block and storing it with the halves exchanged gives it back. -/
@[simp] theorem storeBlock_loadBlock (b : Block) : storeBlock ⟨(loadBlock b).r, (loadBlock b).l⟩ = b := by
  rw [block_eq b]
  generalize b[0] = b0, b[1] = b1, b[2] = b2, b[3] = b3, b[4] = b4, b[5] = b5, b[6] = b6, b[7] = b7
  rw [loadBlock_bytes]
  exact storeBlock_words b4 b5 b6 b7 b0 b1 b2 b3

/-- A pair of rounds undone by the same keys in the other order, the halves exchanged. -/
theorem feistelPair_undo (a b : RoundKey) (h : Halves) :
    feistelPair b a ⟨(feistelPair a b h).r, (feistelPair a b h).l⟩ = ⟨h.r, h.l⟩ := by
  simp [feistelPair]

@[simp] theorem encryptRounds_zero (ks : KeyFile) (h : Halves) : encryptRounds ks 0 h = h := rfl

@[simp] theorem decryptRounds_zero (ks : KeyFile) (h : Halves) : decryptRounds ks 0 h = h := rfl

/-- The encryption loop with one pair of rounds more runs that pair last (R210). -/
theorem encryptRounds_succ (ks : KeyFile) (n : Nat) (h : Halves) :
    encryptRounds ks (2 * (n + 1)) h =
      feistelPair (ks.read (2 * n)) (ks.read (2 * n + 1)) (encryptRounds ks (2 * n) h) := by
  simp only [encryptRounds, Nat.mul_div_cancel_left _ (show 0 < 2 by norm_num), List.range_succ, List.foldl_append,
    List.foldl_cons, List.foldl_nil]

/-- The decryption loop with one pair of rounds more runs that pair first (R211). -/
theorem decryptRounds_succ (ks : KeyFile) (n : Nat) (h : Halves) :
    decryptRounds ks (2 * (n + 1)) h =
      decryptRounds ks (2 * n) (feistelPair (ks.read (2 * n + 1)) (ks.read (2 * n)) h) := by
  have h1 : ∀ p, 2 * (n + 1) - 1 - 2 * (p + 1) = 2 * n - 1 - 2 * p := fun p => by omega
  have h2 : ∀ p, 2 * (n + 1) - 2 - 2 * (p + 1) = 2 * n - 2 - 2 * p := fun p => by omega
  have h3 : 2 * (n + 1) - 1 - 2 * 0 = 2 * n + 1 := by omega
  have h4 : 2 * (n + 1) - 2 - 2 * 0 = 2 * n := by omega
  simp only [decryptRounds, Nat.mul_div_cancel_left _ (show 0 < 2 by norm_num), List.range_succ_eq_map,
    List.foldl_cons, List.foldl_map, Nat.succ_eq_add_one, h1, h2, h3, h4]

end Sys2Proof.Machine
end

