-- ==== Sys2Proof/Laws/GfUnit.lean ====
section
/-! SUPPORT. The GF(2^8) unit over numbers: the same loop on Nat, which the kernel evaluates quickly. -/

namespace Sys2Proof.Machine

/-- One step of the multiplicand on numbers. -/
def natTimesX (m x : Nat) : Nat := if 256 ≤ 2 * x then (2 * x) ^^^ m else 2 * x

/-- The loop of GF_MULT on numbers. -/
def natMultLoop (m : Nat) : Nat → Nat → Nat → Nat → Nat
  | 0, res, _, _ => res
  | fuel + 1, res, x, y => natMultLoop m fuel (if y % 2 = 1 then res ^^^ x else res) (natTimesX m x) (y / 2)

/-- GF_MULT on numbers. -/
def natMult (a b m : Nat) : Nat := natMultLoop m 8 0 a b

/-- GF_EXP7 on numbers. -/
def natExp7 (b m : Nat) : Nat :=
  if b = 0 then 0 else
    (fun x2 => (fun x3 => natMult b (natMult x3 x3 m) m) (natMult b x2 m)) (natMult b b m)

theorem gfTimesX_toNat (m x : BitVec 9) (hx : x.toNat < 256) :
    (gfTimesX m x).toNat = natTimesX m.toNat x.toNat := by
  have e : (x <<< 1).toNat = 2 * x.toNat := by
    rw [BitVec.toNat_shiftLeft, Nat.shiftLeft_eq]
    omega
  have h : (x <<< 1 ≥ 256#9) ↔ 256 ≤ 2 * x.toNat := by
    rw [ge_iff_le, BitVec.le_def, e]
    rfl
  unfold gfTimesX natTimesX
  by_cases h2 : 256 ≤ 2 * x.toNat
  · rw [if_pos (h.2 h2), if_pos h2, BitVec.toNat_xor, e]
  · rw [if_neg (fun h3 => h2 (h.1 h3)), if_neg h2, e]

/-- Folding back keeps the multiplicand under 256, for a modulus in 256 … 511 (41_gf_arith.md R124). -/
theorem natTimesX_lt {m x : Nat} (hm : 256 ≤ m) (hm' : m < 512) (hx : x < 256) : natTimesX m x < 256 := by
  unfold natTimesX
  split
  · rename_i h
    have hbit : ∀ i, 8 ≤ i → ((2 * x) ^^^ m).testBit i = false := by
      intro i hi
      rw [Nat.testBit_xor]
      by_cases h8 : i = 8
      · subst h8
        rw [show (2 * x).testBit 8 = true by rw [Nat.testBit_eq_decide_div_mod_eq]; simp; omega,
          show m.testBit 8 = true by rw [Nat.testBit_eq_decide_div_mod_eq]; simp; omega]
        rfl
      · have hp : 2 ^ 9 ≤ 2 ^ i := Nat.pow_le_pow_right (by norm_num) (by omega)
        rw [Nat.testBit_lt_two_pow (by omega), Nat.testBit_lt_two_pow (by omega)]
        rfl
    exact Nat.lt_pow_two_of_testBit (n := 8) _ (fun i hi => hbit i hi)
  · omega

theorem gfMultLoop_toNat (m : BitVec 9) (hm : 256 ≤ m.toNat) (fuel : Nat) (res : Byte) (x : BitVec 9) (y : Byte)
    (hx : x.toNat < 256) : (gfMultLoop m fuel res x y).toNat = natMultLoop m.toNat fuel res.toNat x.toNat y.toNat := by
  induction fuel generalizing res x y with
  | zero => rfl
  | succ fuel ih =>
    have hx' : (gfTimesX m x).toNat < 256 := by
      rw [gfTimesX_toNat m x hx]
      exact natTimesX_lt hm m.isLt hx
    unfold gfMultLoop natMultLoop
    by_cases hy : y = 0
    · subst hy
      rw [if_pos rfl]
      have stay : ∀ f r u, natMultLoop m.toNat f r u 0 = r := by
        intro f
        induction f with
        | zero => exact fun _ _ => rfl
        | succ f ihf =>
          intro r u
          unfold natMultLoop
          exact ihf _ _
      exact (stay _ _ _).symm
    · rw [if_neg hy, ih _ _ _ hx', gfTimesX_toNat m x hx]
      congr 1
      by_cases hb : y.getLsbD 0
      · have : y.toNat % 2 = 1 := by
          rw [BitVec.getLsbD, Nat.testBit_zero] at hb
          simpa using hb
        rw [if_pos hb, if_pos this, BitVec.toNat_xor, BitVec.toNat_setWidth, Nat.mod_eq_of_lt hx]
      · have : ¬ y.toNat % 2 = 1 := by
          rw [BitVec.getLsbD, Nat.testBit_zero] at hb
          simpa using hb
        rw [if_neg hb, if_neg this]

/-- GF_MULT is its form on numbers. -/
theorem gfMult_toNat (a b : Byte) (m : BitVec 9) (hm : 256 ≤ m.toNat) :
    (gfMult a b m).toNat = natMult a.toNat b.toNat m.toNat := by
  have ha : (a.setWidth 9).toNat = a.toNat := by
    rw [BitVec.toNat_setWidth]
    exact Nat.mod_eq_of_lt (lt_trans a.isLt (by norm_num))
  rw [gfMult, gfMultLoop_toNat m hm _ _ _ _ (by rw [ha]; exact a.isLt), ha]
  rfl

/-- GF_EXP7 is its form on numbers. -/
theorem gfExp7_toNat (b : Byte) (m : BitVec 9) (hm : 256 ≤ m.toNat) :
    (gfExp7 b m).toNat = natExp7 b.toNat m.toNat := by
  unfold gfExp7 natExp7
  by_cases h : b = 0
  · subst h
    rfl
  · rw [if_neg h, if_neg (fun h2 : b.toNat = 0 => h (BitVec.eq_of_toNat_eq h2))]
    simp only [gfMult_toNat _ _ _ hm]

/-- Every modulus of the table is in 256 … 511 (42_spbox.md R140). -/
theorem smod_ge (p row : Fin 4) : 256 ≤ (smod p row).toNat := by
  revert p row
  decide

/-- An S-map on numbers. -/
theorem sMap_toNat (p row : Fin 4) (col : Byte) :
    (sMap p row col).toNat = natExp7 (col.toNat ^^^ (sxor p row).toNat) (smod p row).toNat := by
  rw [sMap, gfExp7_toNat _ _ (smod_ge p row), BitVec.toNat_xor]

end Sys2Proof.Machine
end

