-- ==== Sys2Proof/Laws/KeySchedule.lean ====
section
/-! SUPPORT. The key-schedule expander, one level at a time: an extraction, a pass, a round, a BUILDBLOCK. -/

namespace Sys2Proof.Machine

/-! ## Words of a round key -/

theorem RoundKey.word_setWord (k : RoundKey) (s x : Nat) (v : Word) (hs : s < 3) (hx : x < 3) :
    (k.setWord s v).word x = if s = x then v else k.word x := by
  have h1 : s = 0 ∨ s = 1 ∨ s = 2 := by omega
  have h2 : x = 0 ∨ x = 1 ∨ x = 2 := by omega
  rcases h1 with rfl | rfl | rfl <;> rcases h2 with rfl | rfl | rfl <;> rfl

theorem RoundKey.zero_word (x : Nat) : RoundKey.zero.word x = 0 := by
  unfold RoundKey.word RoundKey.zero
  split <;> rfl

theorem RoundKey.ext_word {a b : RoundKey} (h : ∀ x < 3, a.word x = b.word x) : a = b := by
  obtain ⟨a0, a1, a2⟩ := a
  obtain ⟨b0, b1, b2⟩ := b
  rw [show a0 = b0 from h 0 (by omega), show a1 = b1 from h 1 (by omega), show a2 = b2 from h 2 (by omega)]

/-- A property of the three words is a property of every word. -/
theorem RoundKey.forall_word {k : RoundKey} {P : Word → Prop} (h : ∀ x < 3, P (k.word x)) (x : Nat) : P (k.word x) := by
  by_cases hx : x < 3
  · exact h x hx
  · have : k.word x = k.word 2 := by
      match x, hx with
      | 0, h => omega
      | 1, h => omega
      | _ + 2, _ => rfl
    rw [this]
    exact h 2 (by omega)

/-! ## One extraction and one pass -/

/-- Shift one bit into a subkey word. -/
def pushBit (v : Word) (b : Bool) : Word := (v <<< 1) ||| (BitVec.ofBool b).setWidth 32

theorem pushBit_toNat (v : Word) (b : Bool) : (pushBit v b).toNat = (2 * v.toNat + b.toNat) % 2 ^ 32 := by
  have hv := v.isLt
  have e : v <<< 1 = BitVec.ofNat 32 (2 * v.toNat) := by
    apply BitVec.eq_of_toNat_eq
    simp [BitVec.toNat_shiftLeft, Nat.shiftLeft_eq, Nat.mul_comm]
  unfold pushBit
  rw [e, BitVec.toNat_or]
  have hb : ((BitVec.ofBool b).setWidth 32 : Word).toNat = b.toNat := by cases b <;> rfl
  rw [hb, BitVec.toNat_ofNat]
  have h2 : 2 * v.toNat % 2 ^ 32 = (v.toNat % 2 ^ 31) <<< 1 := by
    rw [Nat.shiftLeft_eq]
    omega
  rw [h2, ← Nat.shiftLeft_add_eq_or_of_lt (by cases b <;> decide), Nat.shiftLeft_eq]
  cases b <;> simp <;> omega

theorem pushBit_getLsbD (v : Word) (b : Bool) (i : Nat) (hi : i < 32) :
    (pushBit v b).getLsbD i = if i = 0 then b else v.getLsbD (i - 1) := by
  unfold pushBit
  by_cases h : i = 0
  · subst h
    cases b <;> simp
  · rw [if_neg h, BitVec.getLsbD_or, BitVec.getLsbD_shiftLeft]
    cases b <;> simp [hi, h, show ¬ i < 1 by omega]

/-- One step of a KB word, bit by bit (43_key_schedule.md R170). -/
theorem kbStep_getLsbD (v : Half) (i : Nat) (hi : i < 16) :
    (kbStep v).getLsbD i = if i = 15 then !v.getLsbD 0 else v.getLsbD (i + 1) := by
  unfold kbStep
  rw [BitVec.getLsbD_append, BitVec.getLsbD_extractLsb', BitVec.getLsbD_ofBool]
  by_cases h : i = 15
  · subst h
    simp
  · rw [if_neg h]
    have : i < 15 := by omega
    simp [this, Nat.add_comm]

/-- KB words as read by index mod 4. -/
def kbAt (kb : KeyBlock) (w : Nat) : Half := kb[Fin.ofNat 4 w]

theorem kbAt_set (kb : KeyBlock) (u w : Nat) (v : Half) :
    kbAt (kb.set (Fin.ofNat 4 u) v) w = if u % 4 = w % 4 then v else kbAt kb w := by
  simp only [kbAt, Fin.getElem_fin, Vector.getElem_set, Fin.val_ofNat]

theorem kbAt_mod (kb : KeyBlock) (w : Nat) : kbAt kb (w % 4) = kbAt kb w := by
  simp [kbAt, Fin.ofNat]

theorem extractBit_word (kr s k x : Nat) (e : Expansion) (hs : s < 3) (hx : x < 3) :
    (extractBit kr s k e).key.word x =
      if s = x then pushBit (e.key.word x) ((kbAt e.kb (kr + k)).getLsbD 0) else e.key.word x := by
  unfold extractBit
  simp only
  rw [RoundKey.word_setWord _ _ _ _ hs hx]
  by_cases h : s = x
  · subst h
    rfl
  · simp [h]

theorem extractBit_kb (kr s k w : Nat) (e : Expansion) :
    kbAt (extractBit kr s k e).kb w = if (kr + k) % 4 = w % 4 then kbStep (kbAt e.kb w) else kbAt e.kb w := by
  unfold extractBit
  simp only
  rw [kbAt_set]
  by_cases h : (kr + k) % 4 = w % 4
  · rw [if_pos h, if_pos h]
    have : kbAt e.kb (kr + k) = kbAt e.kb w := by rw [← kbAt_mod, h, kbAt_mod]
    rw [← this]
    rfl
  · rw [if_neg h, if_neg h]

/-- Four bits into a word, the first ending highest. -/
def push4 (v : Word) (f : Nat → Bool) : Word := pushBit (pushBit (pushBit (pushBit v (f 0)) (f 1)) (f 2)) (f 3)

theorem push4_lt {v : Word} {n : Nat} (f : Nat → Bool) (h : v.toNat < 2 ^ n) (hn : n + 4 ≤ 32) :
    (push4 v f).toNat < 2 ^ (n + 4) := by
  have hp : 2 ^ (n + 4) ≤ 2 ^ 32 := Nat.pow_le_pow_right (by norm_num) hn
  have hb : ∀ b : Bool, b.toNat ≤ 1 := fun b => by cases b <;> simp
  have h0 := hb (f 0)
  have h1 := hb (f 1)
  have h2 := hb (f 2)
  have h3 := hb (f 3)
  have he : 2 ^ (n + 4) = 16 * 2 ^ n := by rw [Nat.pow_add]; omega
  simp only [push4, pushBit_toNat]
  omega

theorem push4_getLsbD (v : Word) (f : Nat → Bool) (i : Nat) (hi : i < 32) :
    (push4 v f).getLsbD i = if i < 4 then f (3 - i) else v.getLsbD (i - 4) := by
  unfold push4
  have h : i = 0 ∨ i = 1 ∨ i = 2 ∨ i = 3 ∨ 4 ≤ i := by omega
  rcases h with rfl | rfl | rfl | rfl | h
  · rw [pushBit_getLsbD _ _ _ hi]; rfl
  · rw [pushBit_getLsbD _ _ _ hi, if_neg (by omega), pushBit_getLsbD _ _ _ (by omega)]; rfl
  · rw [pushBit_getLsbD _ _ _ hi, if_neg (by omega), pushBit_getLsbD _ _ _ (by omega), if_neg (by omega),
      pushBit_getLsbD _ _ _ (by omega)]
    rfl
  · rw [pushBit_getLsbD _ _ _ hi, if_neg (by omega), pushBit_getLsbD _ _ _ (by omega), if_neg (by omega),
      pushBit_getLsbD _ _ _ (by omega), if_neg (by omega), pushBit_getLsbD _ _ _ (by omega)]
    rfl
  · rw [pushBit_getLsbD _ _ _ hi, if_neg (by omega), pushBit_getLsbD _ _ _ (by omega), if_neg (by omega),
      pushBit_getLsbD _ _ _ (by omega), if_neg (by omega), pushBit_getLsbD _ _ _ (by omega), if_neg (by omega),
      if_neg (by omega)]
    rfl

/-- The bits one pass reads. -/
def passBits (kr : Nat) (kb : KeyBlock) (k : Nat) : Bool := (kbAt kb (kr + k)).getLsbD 0

theorem buildPass_eq (kr j : Nat) (e : Expansion) : buildPass kr j e =
    extractBit kr (j % 3) 3 (extractBit kr (j % 3) 2 (extractBit kr (j % 3) 1 (extractBit kr (j % 3) 0 e))) := rfl

/-- One pass steps each KB word once (43_key_schedule.md R170). -/
theorem buildPass_kb (kr j w : Nat) (e : Expansion) : kbAt (buildPass kr j e).kb w = kbStep (kbAt e.kb w) := by
  rw [buildPass_eq]
  simp only [extractBit_kb]
  have h : (kr + 0) % 4 = w % 4 ∨ (kr + 1) % 4 = w % 4 ∨ (kr + 2) % 4 = w % 4 ∨ (kr + 3) % 4 = w % 4 := by omega
  rcases h with h | h | h | h
  · rw [if_neg (show ¬ (kr + 3) % 4 = w % 4 by omega), if_neg (show ¬ (kr + 2) % 4 = w % 4 by omega),
      if_neg (show ¬ (kr + 1) % 4 = w % 4 by omega), if_pos h]
  · rw [if_neg (show ¬ (kr + 3) % 4 = w % 4 by omega), if_neg (show ¬ (kr + 2) % 4 = w % 4 by omega),
      if_pos h, if_neg (show ¬ (kr + 0) % 4 = w % 4 by omega)]
  · rw [if_neg (show ¬ (kr + 3) % 4 = w % 4 by omega), if_pos h,
      if_neg (show ¬ (kr + 1) % 4 = w % 4 by omega), if_neg (show ¬ (kr + 0) % 4 = w % 4 by omega)]
  · rw [if_pos h, if_neg (show ¬ (kr + 2) % 4 = w % 4 by omega),
      if_neg (show ¬ (kr + 1) % 4 = w % 4 by omega), if_neg (show ¬ (kr + 0) % 4 = w % 4 by omega)]

/-- One pass pushes the four low bits, in its order, into slot j mod 3 (R167). -/
theorem buildPass_word (kr j x : Nat) (e : Expansion) (hx : x < 3) :
    (buildPass kr j e).key.word x = if j % 3 = x then push4 (e.key.word x) (passBits kr e.kb) else e.key.word x := by
  have hj : j % 3 < 3 := Nat.mod_lt _ (by norm_num)
  rw [buildPass_eq]
  simp only [extractBit_word _ _ _ _ _ hj hx]
  by_cases h : j % 3 = x
  · simp only [if_pos h, push4, passBits, extractBit_kb]
    simp only [if_neg (show ¬ (kr + 0) % 4 = (kr + 1) % 4 by omega), if_neg (show ¬ (kr + 0) % 4 = (kr + 2) % 4 by omega),
      if_neg (show ¬ (kr + 1) % 4 = (kr + 2) % 4 by omega), if_neg (show ¬ (kr + 0) % 4 = (kr + 3) % 4 by omega),
      if_neg (show ¬ (kr + 1) % 4 = (kr + 3) % 4 by omega), if_neg (show ¬ (kr + 2) % 4 = (kr + 3) % 4 by omega)]
  · simp only [if_neg h]

/-! ## One round -/

/-- The first n passes of a round. -/
def passes (kr : Nat) (kb : KeyBlock) (n : Nat) : Expansion :=
  (List.range n).foldl (fun e j => buildPass kr j e) ⟨RoundKey.zero, kb⟩

theorem passes_succ (kr : Nat) (kb : KeyBlock) (n : Nat) : passes kr kb (n + 1) = buildPass kr n (passes kr kb n) := by
  simp only [passes, List.range_succ, List.foldl_append, List.foldl_cons, List.foldl_nil]

theorem buildRound_eq (kr : Nat) (kb : KeyBlock) : buildRound kr kb = passes kr kb 15 := rfl

theorem passes_kb (kr : Nat) (kb : KeyBlock) (n w : Nat) : kbAt (passes kr kb n).kb w = kbStep^[n] (kbAt kb w) := by
  induction n with
  | zero => rfl
  | succ n ih => rw [passes_succ, buildPass_kb, ih, Function.iterate_succ_apply']

/-- What pass j pushes, from the KB the round started with. -/
def roundBits (kr : Nat) (kb : KeyBlock) (j k : Nat) : Bool := (kbStep^[j] (kbAt kb (kr + k))).getLsbD 0

theorem passes_word (kr : Nat) (kb : KeyBlock) (n x : Nat) (hx : x < 3) : (passes kr kb (n + 1)).key.word x =
    if n % 3 = x then push4 ((passes kr kb n).key.word x) (roundBits kr kb n) else (passes kr kb n).key.word x := by
  rw [passes_succ, buildPass_word _ _ _ _ hx]
  have : passBits kr (passes kr kb n).kb = roundBits kr kb n := by
    funext k
    simp only [passBits, roundBits, passes_kb]
  rw [this]

/-- A subkey word is five pushes into 0: passes x, x+3, x+6, x+9 and x+12 (R168). -/
theorem buildRound_word (kr : Nat) (kb : KeyBlock) (x : Nat) (hx : x < 3) : (buildRound kr kb).key.word x =
    push4 (push4 (push4 (push4 (push4 0 (roundBits kr kb x)) (roundBits kr kb (x + 3))) (roundBits kr kb (x + 6)))
      (roundBits kr kb (x + 9))) (roundBits kr kb (x + 12)) := by
  have h0 : (passes kr kb 0).key.word x = 0 := RoundKey.zero_word x
  rw [buildRound_eq]
  have h : x = 0 ∨ x = 1 ∨ x = 2 := by omega
  rcases h with rfl | rfl | rfl <;> simp [passes_word, h0]

/-- Every subkey word is below 2^20 (R168). -/
theorem buildRound_narrow (kr : Nat) (kb : KeyBlock) (x : Nat) : ((buildRound kr kb).key.word x).toNat < 2 ^ 20 := by
  refine RoundKey.forall_word (P := fun v => v.toNat < 2 ^ 20) (fun x hx => ?_) x
  rw [buildRound_word kr kb x hx]
  exact push4_lt _ (push4_lt _ (push4_lt _ (push4_lt _ (push4_lt (n := 0) _ (by simp) (by omega)) (by omega))
    (by omega)) (by omega)) (by omega)

/-- The bit pass 3q+x extracts at step k ends at bit 19−(4q+k) (R169). -/
theorem buildRound_bit (kr : Nat) (kb : KeyBlock) {x q k : Nat} (hx : x < 3) (hq : q < 5) (hk : k < 4) :
    ((buildRound kr kb).key.word x).getLsbD (19 - (4 * q + k)) = roundBits kr kb (3 * q + x) k := by
  rw [buildRound_word kr kb x hx]
  have h : q = 0 ∨ q = 1 ∨ q = 2 ∨ q = 3 ∨ q = 4 := by omega
  have h' : k = 0 ∨ k = 1 ∨ k = 2 ∨ k = 3 := by omega
  rw [show 3 * q + x = x + 3 * q by omega]
  have peel : ∀ (v : Word) (f : Nat → Bool) (i : Nat), 4 ≤ i → i < 32 → (push4 v f).getLsbD i = v.getLsbD (i - 4) :=
    fun v f i h1 h2 => by rw [push4_getLsbD v f i h2, if_neg (by omega)]
  have last : ∀ (v : Word) (f : Nat → Bool) (i : Nat), i < 4 → (push4 v f).getLsbD i = f (3 - i) :=
    fun v f i h1 => by rw [push4_getLsbD v f i (by omega), if_pos h1]
  rcases h with rfl | rfl | rfl | rfl | rfl
  · rw [peel _ _ _ (by omega) (by omega), peel _ _ _ (by omega) (by omega), peel _ _ _ (by omega) (by omega),
      peel _ _ _ (by omega) (by omega), last _ _ _ (by omega)]
    rcases h' with rfl | rfl | rfl | rfl <;> rfl
  · rw [peel _ _ _ (by omega) (by omega), peel _ _ _ (by omega) (by omega), peel _ _ _ (by omega) (by omega),
      last _ _ _ (by omega)]
    rcases h' with rfl | rfl | rfl | rfl <;> rfl
  · rw [peel _ _ _ (by omega) (by omega), peel _ _ _ (by omega) (by omega), last _ _ _ (by omega)]
    rcases h' with rfl | rfl | rfl | rfl <;> rfl
  · rw [peel _ _ _ (by omega) (by omega), last _ _ _ (by omega)]
    rcases h' with rfl | rfl | rfl | rfl <;> rfl
  · rw [last _ _ _ (by omega)]
    rcases h' with rfl | rfl | rfl | rfl <;> rfl

/-- One round steps each KB word 15 times. -/
theorem buildRound_kb (kr : Nat) (kb : KeyBlock) (w : Nat) : kbAt (buildRound kr kb).kb w = kbStep^[15] (kbAt kb w) := by
  rw [buildRound_eq, passes_kb]

/-! ## One BUILDBLOCK -/

/-- The first m rounds of a BUILDBLOCK. -/
def entries (n rb : Nat) (sch : Schedule) (m : Nat) : Schedule :=
  (List.range m).foldl (fun sch r => buildEntry n rb r sch) sch

theorem buildBlock_eq (n rb : Nat) (sch : Schedule) : buildBlock n rb sch = entries n rb sch 8 := rfl

theorem entries_succ (n rb : Nat) (sch : Schedule) (m : Nat) :
    entries n rb sch (m + 1) = buildEntry n rb m (entries n rb sch m) := by
  simp only [entries, List.range_succ, List.foldl_append, List.foldl_cons, List.foldl_nil]

theorem entries_kb (n rb : Nat) (sch : Schedule) (m w : Nat) :
    kbAt (entries n rb sch m).kb w = kbStep^[15 * m] (kbAt sch.kb w) := by
  induction m with
  | zero => rfl
  | succ m ih =>
    rw [entries_succ]
    simp only [buildEntry]
    rw [buildRound_kb, ih, ← Function.iterate_add_apply, show 15 * (m + 1) = 15 + 15 * m by ring]

theorem entries_wf {n rb : Nat} {sch : Schedule} (h : sch.ks.wf) (m : Nat) : (entries n rb sch m).ks.wf := by
  induction m with
  | zero => exact h
  | succ m ih =>
    rw [entries_succ]
    exact KeyFile.write_wf ih _ _

theorem entries_read {n rb : Nat} {sch : Schedule} (h : sch.ks.wf) (m i : Nat) :
    (entries n rb sch m).ks.read i =
      if n ≤ i ∧ i < n + m then (buildRound (keyrot (Fin.ofNat 16 (rb + (i - n)))).val (entries n rb sch (i - n)).kb).key
      else sch.ks.read i := by
  induction m with
  | zero => rw [if_neg (by omega)]; rfl
  | succ m ih =>
    rw [entries_succ]
    simp only [buildEntry]
    rw [KeyFile.read_write (entries_wf h m), ih]
    by_cases hi : n + m = i
    · rw [if_pos hi, if_pos (by omega), show i - n = m by omega]
    · rw [if_neg hi]
      by_cases h2 : n ≤ i ∧ i < n + m
      · rw [if_pos h2, if_pos (by omega)]
      · rw [if_neg h2, if_neg (by omega)]

/-- What BUILDBLOCK(n, rb) does to the schedule: eight entries are the rounds of the KB as it stands then, every
other entry is unchanged (R166). -/
theorem buildBlock_read {n rb : Nat} {sch : Schedule} (h : sch.ks.wf) (i : Nat) :
    (buildBlock n rb sch).ks.read i =
      if n ≤ i ∧ i < n + 8 then
        (buildRound (keyrot (Fin.ofNat 16 (rb + (i - n)))).val (entries n rb sch (i - n)).kb).key
      else sch.ks.read i := entries_read h 8 i

theorem buildBlock_wf {n rb : Nat} {sch : Schedule} (h : sch.ks.wf) : (buildBlock n rb sch).ks.wf := entries_wf h 8

/-- One BUILDBLOCK steps each KB word 120 times (R170). -/
theorem buildBlock_kbAt (n rb : Nat) (sch : Schedule) (w : Nat) :
    kbAt (buildBlock n rb sch).kb w = kbStep^[120] (kbAt sch.kb w) := entries_kb n rb sch 8 w

/-- Every entry BUILDBLOCK lists is one of its eight or an old one. -/
theorem buildBlock_mem {n rb : Nat} {sch : Schedule} {x : Nat × RoundKey} (h : x ∈ (buildBlock n rb sch).ks) :
    (n ≤ x.1 ∧ x.1 < n + 8 ∧ ∃ kr kb, x.2 = (buildRound kr kb).key) ∨ x ∈ sch.ks := by
  have key : ∀ m ≤ 8, ∀ x ∈ (entries n rb sch m).ks,
      (n ≤ x.1 ∧ x.1 < n + 8 ∧ ∃ kr kb, x.2 = (buildRound kr kb).key) ∨ x ∈ sch.ks := by
    intro m
    induction m with
    | zero => intro _ x hx; exact .inr hx
    | succ m ih =>
      intro hm x hx
      rw [entries_succ] at hx
      rcases Cells.mem_write RoundKey.zero hx with rfl | hx
      · exact .inl ⟨by simp, by simp; omega, _, _, rfl⟩
      · exact ih (by omega) x hx
  exact key 8 le_rfl x h

/-! ## The general case -/

/-- The first m key blocks. -/
def blocks (keybuf : Memory) (rounds : Nat) (sch : Schedule) (m : Nat) : Schedule :=
  (List.range m).foldl (fun sch i => expandBlock keybuf rounds i sch) sch

theorem expandGeneral_eq (keybuf : Memory) (size rounds : Nat) (sch : Schedule) :
    expandGeneral keybuf size rounds sch = blocks keybuf rounds sch size := rfl

theorem blocks_succ (keybuf : Memory) (rounds : Nat) (sch : Schedule) (m : Nat) :
    blocks keybuf rounds sch (m + 1) = expandBlock keybuf rounds m (blocks keybuf rounds sch m) := by
  simp only [blocks, List.range_succ, List.foldl_append, List.foldl_cons, List.foldl_nil]

theorem blocks_wf {keybuf : Memory} {rounds : Nat} {sch : Schedule} (h : sch.ks.wf) (m : Nat) :
    (blocks keybuf rounds sch m).ks.wf := by
  induction m with
  | zero => exact h
  | succ m ih =>
    rw [blocks_succ]
    exact buildBlock_wf (buildBlock_wf ih)

/-- Every entry the expansion lists is a built one inside the instance's schedule, or an old one. -/
theorem blocks_mem {keybuf : Memory} {size : Nat} {sch : Schedule} {m : Nat} (hm : m ≤ size) {x : Nat × RoundKey}
    (h : x ∈ (blocks keybuf (16 * size) sch m).ks) :
    (x.1 < 16 * size ∧ ∃ kr kb, x.2 = (buildRound kr kb).key) ∨ x ∈ sch.ks := by
  induction m with
  | zero => exact .inr h
  | succ m ih =>
    rw [blocks_succ] at h
    unfold expandBlock at h
    rcases buildBlock_mem h with ⟨h1, h2, h3⟩ | h
    · exact .inl ⟨by omega, h3⟩
    · rcases buildBlock_mem h with ⟨h1, h2, h3⟩ | h
      · exact .inl ⟨by omega, h3⟩
      · exact ih (by omega) h

end Sys2Proof.Machine
end

