-- ==== Sys2Proof/Laws/PerInstr.lean ====
section
/-! SUPPORT. Statements about every instruction as syntax, one lemma per constructor. -/

/-! ## EncodedFields: what each field of an encoded instruction holds (30_encoding.md R80, R82, R90) -/

/-- The encoded word as a number: OP in bits 3:0, nothing in bits 7:4, the operand in bits 31:8. -/
def Sys2Proof.Laws.EncodedFields.Statement (i : Sys2Proof.Instr) : Prop :=
  (Sys2Proof.encode i).toNat = 256 * i.arg.toNat + i.op.toNat ∧ Sys2Proof.rsvField (Sys2Proof.encode i) = 0 ∧
    1 ≤ i.op.toNat ∧ i.op.toNat ≤ 7

theorem Sys2Proof.Laws.EncodedFields.of_op (i : Sys2Proof.Instr) (h : 1 ≤ i.op.toNat ∧ i.op.toNat ≤ 7) :
    Sys2Proof.Laws.EncodedFields.Statement i :=
  ⟨by rw [Sys2Proof.encode_toNat, Nat.mul_comm], Sys2Proof.rsvField_encode i, h⟩

theorem Sys2Proof.Laws.EncodedFields.construct (level : Int) :
    Sys2Proof.Laws.EncodedFields.Statement (.construct level) := Sys2Proof.Laws.EncodedFields.of_op _ ⟨by simp [Sys2Proof.Instr.op], by simp [Sys2Proof.Instr.op]⟩

theorem Sys2Proof.Laws.EncodedFields.setkey (n : Nat) :
    Sys2Proof.Laws.EncodedFields.Statement (.setkey n) := Sys2Proof.Laws.EncodedFields.of_op _ ⟨by simp [Sys2Proof.Instr.op], by simp [Sys2Proof.Instr.op]⟩

theorem Sys2Proof.Laws.EncodedFields.clear :
    Sys2Proof.Laws.EncodedFields.Statement .clear := Sys2Proof.Laws.EncodedFields.of_op _ ⟨by simp [Sys2Proof.Instr.op], by simp [Sys2Proof.Instr.op]⟩

theorem Sys2Proof.Laws.EncodedFields.encrypt (n : Nat) :
    Sys2Proof.Laws.EncodedFields.Statement (.encrypt n) := Sys2Proof.Laws.EncodedFields.of_op _ ⟨by simp [Sys2Proof.Instr.op], by simp [Sys2Proof.Instr.op]⟩

theorem Sys2Proof.Laws.EncodedFields.decrypt (n : Nat) :
    Sys2Proof.Laws.EncodedFields.Statement (.decrypt n) := Sys2Proof.Laws.EncodedFields.of_op _ ⟨by simp [Sys2Proof.Instr.op], by simp [Sys2Proof.Instr.op]⟩

theorem Sys2Proof.Laws.EncodedFields.keysize :
    Sys2Proof.Laws.EncodedFields.Statement .keysize := Sys2Proof.Laws.EncodedFields.of_op _ ⟨by simp [Sys2Proof.Instr.op], by simp [Sys2Proof.Instr.op]⟩

theorem Sys2Proof.Laws.EncodedFields.blocksize :
    Sys2Proof.Laws.EncodedFields.Statement .blocksize := Sys2Proof.Laws.EncodedFields.of_op _ ⟨by simp [Sys2Proof.Instr.op], by simp [Sys2Proof.Instr.op]⟩
end

