-- ==== Sys2Proof/Tests/Slice0.lean ====
section
/-! SUPPORT. Tests, each expected value taken from the spec (95_test_vectors.md unless another file is named), and one
witness theorem for each obligation that has hypotheses: witness_<Name>. -/

set_option maxRecDepth 100000

namespace Sys2Proof.Tests

open Sys2Proof Sys2Proof.Machine Sys2Proof.Claims

/-! ## Small states -/

/-- The bytes of a key or block, most-significant byte first. -/
def block (a b c d e f g h : Byte) : Block := #v[a, b, c, d, e, f, g, h]

/-- A level-1 instance with a zero schedule. -/
def levelOne : State :=
  { State.reset with status := ⟨0, true, false, false, false⟩, size := 1, rounds := 16 }

/-- A thin instance with a zero schedule. -/
def thin : State :=
  { State.reset with status := ⟨0, true, true, false, false⟩, size := 1, rounds := 8 }

/-- KEYBUF holding the scenario's key 12 23 34 45 56 67 78 89. -/
def scenarioKey : Memory :=
  [(0, 0x12), (1, 0x23), (2, 0x34), (3, 0x45), (4, 0x56), (5, 0x67), (6, 0x78), (7, 0x89)]

/-- The host's next operations. -/
def pending (s : State) (ops : List HostOp) : State := { s with hostOps := ops }

/-- What a test looks at in the state a step answers. -/
def after {α : Type} (r : Result) (f : State → α) : Option α :=
  match r with
  | .next t => some (f t)
  | .fault _ => none
  | .refused _ => none

/-- The refusal a step answers. -/
def refusalOf (r : Result) : Option Refusal :=
  match r with
  | .next _ => none
  | .fault _ => none
  | .refused e => some e

/-! ## WellFormed refuses each ill-formed term (30_encoding.md R81, R89) -/

theorem test_wellFormed_refuses_level_above : (Instr.construct 8388608).wellFormed = false := by decide
theorem test_wellFormed_refuses_level_below : (Instr.construct (-8388609)).wellFormed = false := by decide
theorem test_wellFormed_refuses_setkey_length : (Instr.setkey 16777216).wellFormed = false := by decide
theorem test_wellFormed_refuses_encrypt_length : (Instr.encrypt 16777216).wellFormed = false := by decide
theorem test_wellFormed_refuses_decrypt_length : (Instr.decrypt 16777216).wellFormed = false := by decide
theorem test_wellFormed_admits_the_ends :
    (Instr.construct 8388607).wellFormed = true ∧ (Instr.construct (-8388608)).wellFormed = true ∧
    (Instr.setkey 16777215).wellFormed = true ∧ Instr.clear.wellFormed = true ∧
    Instr.keysize.wellFormed = true ∧ Instr.blocksize.wellFormed = true := by decide

/-! ## Decoding: words written out as ARG (24 bits), RSV (4 bits), OP (4 bits), from 30_encoding.md R80 and R82 -/

theorem test_decode_construct : decode 0b000000000000000000000010_0000_0001 = .ok (.construct 2) := by decide
theorem test_decode_construct_negative :
    decode 0b100000000000000000000000_0000_0001 = .ok (.construct (-8388608)) := by decide
theorem test_decode_setkey : decode 0b000000000000000000010000_0000_0010 = .ok (.setkey 16) := by decide
theorem test_decode_setkey_unsigned : decode 0b111111111111111111111111_0000_0010 = .ok (.setkey 16777215) := by decide
theorem test_decode_clear : decode 0b000000000000000000000000_0000_0011 = .ok .clear := by decide
theorem test_decode_encrypt : decode 0b000000010000000000000000_0000_0100 = .ok (.encrypt 65536) := by decide
theorem test_decode_decrypt : decode 0b000000000000000000001000_0000_0101 = .ok (.decrypt 8) := by decide
theorem test_decode_keysize : decode 0b000000000000000000000000_0000_0110 = .ok .keysize := by decide
theorem test_decode_blocksize : decode 0b000000000000000000000000_0000_0111 = .ok .blocksize := by decide
theorem test_decode_reserved_op :
    decode 0x00000000 = .error .reservedOp ∧ decode 0x0000000F = .error .reservedOp := by decide
theorem test_decode_reserved_field :
    decode 0x00000011 = .error .reservedField ∧ decode 0x000000F1 = .error .reservedField := by decide
theorem test_decode_unused_arg :
    decode 0x00000103 = .error .unusedArg ∧ decode 0x80000006 = .error .unusedArg ∧
    decode 0x00000107 = .error .unusedArg := by decide
theorem test_decodeTableWord :
    decodeTableWord 32 0x00000804 = some (.encrypt 8) ∧ decodeTableWord 32 0x00000014 = none := by decide

/-! ## The datapaths (sections 2.1, 2.2, 2.3, 2.4, 2.7) -/

theorem test_gfMult_reduces : gfMult 0xFF 0xFF 333 = 0xF6 ∧ gfMult 0x02 0x80 333 = 0x4D := by decide
theorem test_gfExp7 : gfExp7 0x83 333 = 0x17 ∧ gfExp7 0x00 505 = 0x00 := by decide
theorem test_perm32 : perm32 0x12345678 = 0x056F2360 ∧ perm32 0x01000000 = 0x00000002 := by decide
theorem test_sp_worked_entry :
    sp 0 0x2A5 = 0x80001800 ∧ sp 1 0x2A5 = 0x08020214 ∧ sp 2 0x2A5 = 0x04014028 ∧ sp 3 0x2A5 = 0x00000481 := by decide
theorem test_roundF_swap : roundF 0x12345678 ⟨0, 0, 0xFFFFF⟩ = 0x5573B477 := by decide
theorem test_roundF_keys : roundF 0x55555555 ⟨0x12345, 0x6789A, 0xBCDEF⟩ = 0x5B38719F := by decide
theorem test_packKB : packKB scenarioKey 0 = #v[0x7889, 0x5667, 0x3445, 0x1223] := by decide
theorem test_first_round_key :
    buildRound 0 #v[0x7889, 0x5667, 0x3445, 0x1223] =
      ⟨⟨0xF865F, 0x5086A, 0x6508C⟩, #v[0x0EEC, 0x5330, 0x9774, 0xDBB8]⟩ := by decide

/-! ## One step of each command -/

theorem test_construct_thin_status :
    after (step (pending State.reset [writeCmd 0xFFFFFB01])) (fun t => (t.status.word, t.size, t.rounds)) =
      some (0x00000030, 1, 8) := by decide
theorem test_construct_invalidLevel :
    after (step (pending levelOne [writeCmd 0x00000301])) (fun t => (t.status.word, t.size, t.rounds)) =
      some (0x00000055, 1, 16) := by decide
theorem test_setkey_last_round_key :
    after (step (pending { levelOne with keybuf := scenarioKey } [writeCmd 0x00000802])) (fun t => t.ks.read 15) =
      some ⟨0x5029A, 0x95023, 0x295F0⟩ := by decide
theorem test_setkey_invalidKeyLength :
    after (step (pending levelOne [writeCmd 0x00001002])) (fun t => (t.status.err, t.ks)) = some (1, []) := by decide
theorem test_clear :
    after (step (pending { levelOne with ks := [(3, ⟨1, 2, 3⟩)] } [writeCmd 0x00000003]))
      (fun t => (t.ks, t.status.word)) = some ([], 0x00000010) := by decide
theorem test_encrypt_zero_schedule :
    after (step (pending { thin with blkin := block 0x11 0x22 0x33 0x44 0x55 0x66 0x77 0x88 } [writeCmd 0x00000804]))
      (fun t => t.blkout) = some (block 0x13 0x36 0x3F 0x8C 0x2C 0xCD 0x26 0xC5) := by decide
theorem test_encrypt_noInstance :
    after (step (pending State.reset [writeCmd 0x00000404])) (fun t => t.status.word) = some 0x00000043 := by decide
theorem test_decrypt_zero_schedule :
    after (step (pending { thin with blkin := block 0xA2 0x5E 0x23 0x4E 0x7D 0xB6 0x6A 0xE4 } [writeCmd 0x00000805]))
      (fun t => t.blkout) = some (block 0xFE 0xDC 0xBA 0x98 0x76 0x54 0x32 0x10) := by decide
theorem test_decrypt_invalidBlockLength :
    after (step (pending levelOne [writeCmd 0xFFFFFF05])) (fun t => t.status.err) = some 2 := by decide
theorem test_keysize_level_two :
    after (step (pending { levelOne with size := 2, rounds := 32 } [writeCmd 0x00000006])) (fun t => t.result) =
      some 16 := by decide
theorem test_blocksize_at_reset :
    after (step (pending State.reset [writeCmd 0x00000007])) (fun t => (t.result, t.status.word)) =
      some (8, 0) := by decide
theorem test_illegal_before_noInstance :
    after (step (pending State.reset [writeCmd 0x00000824])) (fun t => t.status.err) = some 4 := by decide

/-! ## The port and the host's side (20_memory.md) -/

theorem test_port_edges :
    portAt ⟨2⟩ 0x013 1 = .error .wrongAccess ∧ portAt ⟨2⟩ 0x014 4 = .error .reservedOffset ∧
    portAt ⟨2⟩ 0x02F 1 = .ok (.blkout 7) ∧ portAt ⟨2⟩ 0x030 1 = .error .reservedOffset ∧
    portAt ⟨2⟩ 0x10F 1 = .ok (.keybuf 15) ∧ portAt ⟨2⟩ 0x110 1 = .error .reservedOffset := by decide
theorem test_write_to_status_refused :
    refusalOf (step (pending State.reset [.memWrite 0x004 4 0])) = some .readOnly := by decide
theorem test_key_byte_is_write_only :
    after (step (pending { levelOne with keybuf := scenarioKey } [.memRead 0x100 1])) (fun t => t.replies) =
      some [.byte 0] := by decide
theorem test_withFetchWord_runs_next :
    after (step (State.reset.withFetchWord 32 0x00000101)) (fun t => (t.status.word, t.rounds, t.hostOps)) =
      some (0x00000010, 16, []) := by decide

/-! ## Witnesses: encoding -/

theorem witness_DecodeOfEncodeIsTheInstruction :
    (Instr.construct (-8388608)).wellFormed = true ∧ (Instr.setkey 16777215).wellFormed = true := by decide

theorem witness_EncodeOfDecodeIsTheWord : decode 0x80000001 = .ok (.construct (-8388608)) := by decide

theorem witness_IllegalWordsFailAndAllOthersAreCommands :
    IllegalWord 0x00000000 ∧ IllegalWord 0x00000008 ∧ IllegalWord 0x00000011 ∧ IllegalWord 0x00000106 ∧
    ¬ IllegalWord 0x00000007 := by
  unfold IllegalWord opOf rsvOf argOf
  decide

theorem witness_OpcodeMapSelectsByMatchAndMask :
    (0x00000804 : Word) &&& 0x000000FF = 0x00000004 ∧ decode 0x00000804 = .ok (.encrypt 8) ∧
    (∀ row ∈ opcodeRows, (0x00000103 : Word) &&& row.2.1 ≠ row.1) := by
  refine ⟨by decide, by decide, ?_⟩
  simp [opcodeRows]

/-! ## Witnesses: a step, and how a command ends -/

theorem witness_StepRunsTheDecodedCommand :
    (pending State.reset [writeCmd 0x804]).hostOps = .memWrite 0x000 4 0x804 :: [] ∧
    (pending State.reset [writeCmd 0x804]).status.busy = false ∧ decode 0x804 = .ok (.encrypt 8) ∧
    decode 0x014 = .error .reservedField := by decide

theorem witness_AssembledCommandRunsAsWritten :
    State.reset.status.busy = false ∧ (Instr.construct 1).wellFormed = true ∧
    (Instr.construct 8388608).wellFormed = false := by decide

theorem witness_EveryWordEndsAsPrecedenceSays_illegal : reportsError 0x00000824 State.reset 4 := by
  refine .inl ⟨?_, rfl⟩
  unfold IllegalWord opOf rsvOf argOf
  decide

theorem witness_EveryWordEndsAsPrecedenceSays_noInstance : reportsError 0x00000404 State.reset 3 :=
  .inr ⟨.encrypt 4, by decide, .inl ⟨trivial, rfl, rfl⟩⟩

theorem witness_EveryWordEndsAsPrecedenceSays_keyLength : reportsError 0x00001002 levelOne 1 :=
  .inr ⟨.setkey 16, by decide, .inr ⟨fun h => Bool.noConfusion h.2, by decide, rfl⟩⟩

theorem witness_EveryWordEndsAsPrecedenceSays_blockLength : reportsError 0x00000905 levelOne 2 :=
  .inr ⟨.decrypt 9, by decide, .inr ⟨fun h => Bool.noConfusion h.2, by decide, rfl⟩⟩

theorem witness_EveryWordEndsAsPrecedenceSays_level : reportsError 0x00000301 State.reset 5 :=
  .inr ⟨.construct 3, by decide, .inr ⟨fun h => h.1, by decide, by decide, rfl⟩⟩

theorem witness_EveryWordEndsAsPrecedenceSays_success : ∀ code, ¬ reportsError 0x00000007 State.reset code := by
  intro code h
  have hd : decode 0x00000007 = .ok .blocksize := by decide
  rcases h with ⟨h, -⟩ | ⟨i, hi, h⟩
  · unfold IllegalWord opOf rsvOf argOf at h
    revert h
    decide
  · rw [hd] at hi
    cases hi
    rcases h with ⟨h, -⟩ | ⟨-, h⟩
    · exact h
    · exact h

theorem witness_ErrorRecordIsSticky_failure :
    after (step (pending State.reset [writeCmd 0x804])) (fun t => (t.status.err, t.status.eany)) =
      some (3, true) := by decide

theorem witness_ErrorRecordIsSticky_success_and_read :
    after (step (pending { levelOne with status := ⟨1, true, false, true, false⟩ } [writeCmd 0x007]))
      (fun t => (t.status.err, t.status.eany)) = some (0, true) ∧
    after (step (pending { levelOne with status := ⟨1, true, false, true, false⟩ } [.memRead 0x004 4]))
      (fun t => t.status.eany) = some true ∧
    after (step (pending { levelOne with status := ⟨1, true, false, true, false⟩ } [.reset]))
      (fun t => t.status.eany) = some false := by decide

theorem witness_ConfiguredOnlyByConstruct :
    after (exec (.construct 1) State.reset) (fun t => (t.status.err, t.status.cfg)) = some (0, true) ∧
    after (exec (.construct 3) levelOne) (fun t => (t.status.err, t.status.cfg)) = some (5, true) ∧
    after (exec .clear levelOne) (fun t => t.status.cfg) = some true ∧
    after (exec .keysize State.reset) (fun t => t.status.err) = some 3 ∧
    after (step (pending levelOne [.memRead 0x004 4])) (fun t => t.status.cfg) = some true := by decide

theorem witness_EachRegisterHasItsWriters :
    after (executeWord 0x007 State.reset) (fun t => t.result) = some 8 ∧ State.reset.result = 0 ∧
    after (executeWord 0x101 State.reset) (fun t => t.rounds) = some 16 ∧ State.reset.rounds = 0 ∧
    after (executeWord 0x804 thin) (fun t => decide (t.blkout = thin.blkout)) = some false ∧
    after (executeWord 0x802 { thin with keybuf := scenarioKey })
      (fun t => (decide (t.ks = thin.ks), decide (t.kb = thin.kb))) = some (false, false) := by decide

/-! ## Witnesses: CONSTRUCT -/

theorem witness_ConstructBelowOneIsThin : (0 : Int) < 1 ∧ (-8388608 : Int) < 1 := by decide

theorem witness_ConstructSelectsLevel :
    State.reset.part.wf ∧ (1 : Int) ≤ 1 ∧ (1 : Int) ≤ State.reset.part.levelMax ∧
    (1 : Int) ≤ 2 ∧ (2 : Int) ≤ State.reset.part.levelMax := by decide

theorem witness_ConstructReplacesTheInstance :
    levelOne.part.wf ∧ (0 : Int) ≤ levelOne.part.levelMax ∧ (2 : Int) ≤ levelOne.part.levelMax ∧
    (levelOne.part.levelMax : Int) < 3 := by decide

/-! ## Witnesses: the arithmetic -/

/-- Every bit vector has its polynomial. -/
theorem polyOf_exists {n : Nat} (v : BitVec n) : ∃ P : Polynomial (ZMod 2), PolyOf v P := by
  refine ⟨∑ i ∈ Finset.range n, if v.getLsbD i then Polynomial.X ^ i else 0, fun i => ?_⟩
  rw [Polynomial.finsetSum_coeff]
  by_cases hi : i < n
  · rw [Finset.sum_eq_single i]
    · split <;> simp
    · intro j _ hj
      split
      · rw [Polynomial.coeff_X_pow, if_neg (fun h => hj h.symm)]
      · simp
    · intro h
      exact absurd (Finset.mem_range.2 hi) h
  · rw [Finset.sum_eq_zero]
    · rw [BitVec.getLsbD_of_ge _ _ (by omega)]
      simp
    · intro j hj
      have hj' := Finset.mem_range.1 hj
      split
      · rw [Polynomial.coeff_X_pow, if_neg (by omega)]
      · simp

theorem witness_GfMultIsPolynomialProduct :
    256 ≤ (333#9).toNat ∧ ∃ A B M P : Polynomial (ZMod 2), PolyOf (0x80 : Byte) A ∧ PolyOf (0x02 : Byte) B ∧
      PolyOf (333#9) M ∧ PolyOf (gfMult 0x80 0x02 333) P := by
  obtain ⟨A, hA⟩ := polyOf_exists (0x80 : Byte)
  obtain ⟨B, hB⟩ := polyOf_exists (0x02 : Byte)
  obtain ⟨M, hM⟩ := polyOf_exists (333#9)
  obtain ⟨P, hP⟩ := polyOf_exists (gfMult 0x80 0x02 333)
  exact ⟨by decide, A, B, M, P, hA, hB, hM, hP⟩

theorem witness_GfExp7IsSeventhPower :
    256 ≤ (505#9).toNat ∧ ∃ B M P : Polynomial (ZMod 2), PolyOf (0x53 : Byte) B ∧ PolyOf (505#9) M ∧
      PolyOf (gfExp7 0x53 505) P := by
  obtain ⟨B, hB⟩ := polyOf_exists (0x53 : Byte)
  obtain ⟨M, hM⟩ := polyOf_exists (505#9)
  obtain ⟨P, hP⟩ := polyOf_exists (gfExp7 0x53 505)
  exact ⟨by decide, B, M, P, hB, hM, hP⟩

theorem witness_PlanesNeverOverlap : (0 : Fin 4) ≠ 3 := by decide

theorem witness_PlaneEntriesAppearOncePerRow :
    spRow 0x000 = spRow 0x000 ∧ spRow 0x3FF = 3 ∧ spRow 0x200 = 2 ∧ spRow 0x001 = 1 := by decide

theorem witness_SaltSwapsBitByBit :
    (0x80000 : BitVec 20).getLsbD 19 = true ∧ (0x80000 : BitVec 20).getLsbD 0 = false ∧
    (0xFFF00001 : Word) % 2 ^ 20 = (0x00000001 : Word) % 2 ^ 20 := by decide

theorem witness_RoundFunctionIsXorOfFourLookups :
    (0xFFFFF : Word).toNat < 2 ^ 20 ∧ (0 : Word).toNat < 2 ^ 20 ∧ ¬ (0xFFFFFFFF : Word).toNat < 2 ^ 20 := by decide

/-! ## Witnesses: the key schedule -/

theorem witness_SetkeyExpandsToClosedForm :
    levelOne.status.cfg = true ∧ levelOne.status.thin = false ∧ levelOne.ks.wf ∧
    levelOne.rounds.toNat = 16 * levelOne.size.toNat := by decide

theorem witness_ThinScheduleIsStartOfLevelOne :
    thin.status.cfg = true ∧ thin.status.thin = true ∧ thin.size = 1 ∧ thin.rounds = 8 ∧ thin.ks.wf ∧
    levelOne.status.cfg = true ∧ levelOne.status.thin = false ∧ levelOne.size = 1 ∧ levelOne.rounds = 16 ∧
    levelOne.ks.wf ∧ (∀ a < 8, thin.keybuf.read a = levelOne.keybuf.read a) := by decide

/-- The level-1 instance meets the invariant. -/
theorem levelOne_inv : levelOne.Inv where
  part := by decide
  idle := rfl
  err := by decide
  eany := fun h => absurd rfl h
  inst := ⟨fun _ => .inr (by decide), fun h => Bool.noConfusion h⟩
  keybufWf := by decide
  keybufRange := by decide
  ksWf := by decide
  ksRange := by decide
  ksNarrow := by decide
  roundIdx := by decide

/-- The thin instance meets the invariant. -/
theorem thin_inv : thin.Inv where
  part := by decide
  idle := rfl
  err := by decide
  eany := fun h => absurd rfl h
  inst := ⟨fun _ => .inl (by decide), fun h => Bool.noConfusion h⟩
  keybufWf := by decide
  keybufRange := by decide
  ksWf := by decide
  ksRange := by decide
  ksNarrow := by decide
  roundIdx := by decide

/-- The level-1 instance meets it with any key in KEYBUF. -/
theorem keyed_inv (key : Memory) (hw : key.wf) (hr : ∀ c ∈ key, c.1 < 16) : ({ levelOne with keybuf := key }).Inv where
  part := levelOne_inv.part
  idle := rfl
  err := levelOne_inv.err
  eany := levelOne_inv.eany
  inst := ⟨levelOne_inv.inst.configured, levelOne_inv.inst.bare⟩
  keybufWf := hw
  keybufRange := hr
  ksWf := levelOne_inv.ksWf
  ksRange := levelOne_inv.ksRange
  ksNarrow := levelOne_inv.ksNarrow
  roundIdx := levelOne_inv.roundIdx

theorem witness_ScheduleDependsOnKeyAlone :
    ({ levelOne with keybuf := scenarioKey }).Inv ∧ ({ levelOne with keybuf := scenarioKey ++ [(8, 0xFF)] }).Inv ∧
    (∀ a < 8 * levelOne.size.toNat, scenarioKey.read a = (scenarioKey ++ [(8, 0xFF)]).read a) :=
  ⟨keyed_inv _ (by decide) (by decide), keyed_inv _ (by decide) (by decide), by decide⟩

theorem witness_ClearZeroesOnlyTheSchedule :
    levelOne.status.cfg = true ∧ State.reset.status.cfg = false ∧ opOf 0x00000103 = 3 ∧ argOf 0x00000103 ≠ 0 := by decide

theorem witness_ZeroScheduleDeterminism :
    State.reset.part = levelOne.part ∧ (2 : Int) ≤ State.reset.part.levelMax ∧
    (0 : Int) ≤ State.reset.part.levelMax := by decide

/-! ## Witnesses: the cipher and the queries -/

theorem witness_EncryptFollowsTheLoop :
    levelOne.status.cfg = true ∧ levelOne.rounds.toNat = 2 * 8 ∧ State.reset.status.cfg = false ∧ 9 ≠ 8 := by decide

theorem witness_DecryptFollowsTheLoop :
    thin.status.cfg = true ∧ thin.rounds.toNat = 2 * 4 ∧ State.reset.status.cfg = false ∧ 7 ≠ 8 := by decide

theorem witness_DecryptIsEncryptOfReversedSchedule :
    thin.status.cfg = true ∧ thin.rounds.toNat % 2 = 0 ∧
    (∀ i < thin.rounds.toNat, KeyFile.read [(7, ⟨1, 2, 3⟩)] i =
      KeyFile.read [(0, ⟨1, 2, 3⟩)] (thin.rounds.toNat - 1 - i)) := by decide

theorem witness_CipherRoundTrip : levelOne.status.cfg = true ∧ levelOne.InstanceInv :=
  ⟨rfl, levelOne_inv.inst⟩

theorem witness_KeysizeReturnsKeyBytes :
    levelOne.part.wf ∧ levelOne.status.cfg = true ∧ levelOne.InstanceInv ∧ State.reset.status.cfg = false ∧
    opOf 0x80000006 = 6 ∧ argOf 0x80000006 ≠ 0 :=
  ⟨by decide, rfl, levelOne_inv.inst, rfl, by decide, by decide⟩

theorem witness_BlocksizeReturnsEight : opOf 0x00000107 = 7 ∧ argOf 0x00000107 ≠ 0 := by decide

/-! ## Witnesses: the port -/

theorem witness_AccessesAdmittedExactly :
    AdmittedRead ⟨2⟩ 0x010 4 ∧ ¬ AdmittedRead ⟨2⟩ 0x014 4 ∧ AdmittedRead ⟨2⟩ 0x02F 1 ∧ AdmittedRead ⟨2⟩ 0x10F 1 ∧
    ¬ AdmittedRead ⟨2⟩ 0x110 1 ∧ AdmittedWrite ⟨2⟩ 0x000 4 ∧ ¬ AdmittedWrite ⟨2⟩ 0x004 4 ∧
    AdmittedWrite ⟨2⟩ 0x027 1 ∧ ¬ AdmittedWrite ⟨2⟩ 0x028 1 := by
  unfold AdmittedRead AdmittedWrite
  refine ⟨?_, ?_, ?_, ?_, ?_, ?_, ?_, ?_, ?_⟩ <;> decide

theorem witness_ReadsReturnTheNamedRegister :
    (pending levelOne [.memRead 0x004 4]).hostOps = .memRead 0x004 4 :: [] ∧
    AdmittedRead levelOne.part 0x000 4 ∧ AdmittedRead levelOne.part 0x004 4 ∧ AdmittedRead levelOne.part 0x008 4 ∧
    AdmittedRead levelOne.part 0x00C 4 ∧ AdmittedRead levelOne.part 0x010 4 ∧ AdmittedRead levelOne.part 0x027 1 ∧
    AdmittedRead levelOne.part 0x028 1 ∧ AdmittedRead levelOne.part 0x100 1 := by
  unfold AdmittedRead
  refine ⟨?_, ?_, ?_, ?_, ?_, ?_, ?_, ?_, ?_⟩ <;> decide

theorem witness_OnlyCommandWritesHaveSideEffects :
    levelOne.keybuf.wf ∧
    after (step (pending levelOne [.memRead 0x008 4])) (fun t => t.replies) = some [.word 0] ∧
    after (step (pending levelOne [.memWrite 0x027 1 0x1FF])) (fun t => t.blkin[7]) = some 0xFF ∧
    after (step (pending levelOne [.memWrite 0x10F 1 0x0AB])) (fun t => t.keybuf.read 15) = some 0xAB := by decide

theorem witness_BuffersAreReadWhenTheCommandRuns :
    after (step (pending levelOne [.memWrite 0x100 1 0x12])) (fun t => t.keybuf) = some [(0, 0x12)] := by decide

theorem witness_LoadblkAndReadblkMoveABlock : levelOne.status.busy = false := by decide

theorem witness_LoadkeyFillsTheKeyBuffer :
    levelOne.status.busy = false ∧ levelOne.part.wf ∧ levelOne.keybuf.wf ∧
    (List.replicate 16 (0x5A : Byte)).length ≤ levelOne.part.keybufBytes := by decide

/-! ## Witnesses: secrecy, reset, invariants -/

theorem witness_KeyMaterialShowsOnlyThroughTheCipher :
    eraseSecrets (pending levelOne [writeCmd 0x802]) =
      eraseSecrets (pending { levelOne with keybuf := scenarioKey, ks := [(0, ⟨1, 2, 3⟩)] } [writeCmd 0x802]) ∧
    ¬ RunsCipher (writeCmd 0x802) := by
  refine ⟨rfl, ?_⟩
  have hd : decode 0x802 = .ok (.setkey 8) := by decide
  rintro ⟨w, k, h, hw⟩
  have hw' : (0x802 : Word) = w := (HostOp.memWrite.inj h).2.2
  rw [← hw', hd] at hw
  rcases hw with hw | hw <;> cases hw

/-- A byte write whose value is an ENCRYPT or DECRYPT word runs no command: the statement covers it. -/
theorem witness_KeyMaterialShowsOnlyThroughTheCipher_byteWrites :
    ¬ RunsCipher (.memWrite 0x100 1 0x04) ∧ ¬ RunsCipher (.memWrite 0x020 1 0x05) ∧
    eraseSecrets (pending levelOne [.memWrite 0x100 1 0x04]) =
      eraseSecrets (pending { levelOne with keybuf := scenarioKey } [.memWrite 0x100 1 0x04]) :=
  ⟨fun ⟨_, _, h, _⟩ => absurd (HostOp.memWrite.inj h).2.1 (by decide),
   fun ⟨_, _, h, _⟩ => absurd (HostOp.memWrite.inj h).2.1 (by decide), rfl⟩

theorem witness_ScratchIsNotObservable :
    eraseScratch levelOne = eraseScratch { levelOne with l := 1, r := 2, roundIdx := 3 } := rfl

theorem witness_ResetGivesTheTableOfValues : (pending levelOne [.reset]).hostOps = .reset :: [] := by decide

theorem witness_InvariantAtReset : (⟨1⟩ : Part).wf ∧ (⟨2 ^ 23 - 1⟩ : Part).wf := by decide

theorem witness_InstanceGeometry :
    ({ levelOne with keybuf := scenarioKey }).Inv ∧ levelOne.status.cfg = true ∧ levelOne.status.thin = false ∧
    thin.Inv ∧ thin.status.cfg = true ∧ thin.status.thin = true ∧ State.reset.status.cfg = false :=
  ⟨keyed_inv _ (by decide) (by decide), rfl, rfl, thin_inv, rfl, rfl, rfl⟩

theorem witness_EveryStepKeepsTheInvariant :
    ({ levelOne with keybuf := scenarioKey }).Inv ∧
    after (step { levelOne with keybuf := scenarioKey }) (fun t => t.keybuf) = some scenarioKey :=
  ⟨keyed_inv _ (by decide) (by decide), rfl⟩

theorem witness_HostDutyWhileBusy :
    (pending { levelOne with status := ⟨0, true, false, false, true⟩ } [.memRead 0x008 4]).hostOps =
      .memRead 0x008 4 :: [] ∧
    refusalOf (step (pending { levelOne with status := ⟨0, true, false, false, true⟩ } [.memRead 0x008 4])) =
      some .hostDuty ∧
    after (step (pending { levelOne with status := ⟨0, true, false, false, true⟩ } [.wait])) (fun t => t.hostOps) =
      some [.wait] := by decide

end Sys2Proof.Tests
end

/-! # Noninterference: what the scratch registers and the key material show

An erasure that the port cannot see through commutes with every host operation but, perhaps, a command word. Both
erasures of the obligations are of this kind; what remains is how each command treats what is erased. -/

namespace Sys2Proof.Machine

open Claims

/-! ## Runs, one step at a time -/

theorem run_succ_next (n : Nat) {s t : State} (h : step s = .next t) :
    Host.Core.run core (n + 1) s = Host.Core.run core n t := by
  have hc : core.step s = .next t := h
  simp only [Host.Core.run, hc]

theorem run_succ_refused (n : Nat) {s : State} {e : Refusal} (h : step s = .refused e) :
    Host.Core.run core (n + 1) s = .refused e := by
  have hc : core.step s = .refused e := h
  simp only [Host.Core.run, hc]

/-- If a step of states equal up to `f` answers the same refusal or states equal up to `f`, then so does a run. -/
theorem run_congr {f : State → State}
    (hstep : ∀ s u, f s = f u → mapNext f (step s) = mapNext f (step u)) (n : Nat) {s u : State} (h : f s = f u) :
    mapNext f (Host.Core.run core n s) = mapNext f (Host.Core.run core n u) := by
  induction n generalizing s u with
  | zero => exact congrArg Host.Outcome.next h
  | succ n ih =>
    have hsu := hstep s u h
    cases hs : step s with
    | next s' =>
      cases hu : step u with
      | next u' =>
        rw [run_succ_next n hs, run_succ_next n hu]
        exact ih (by simpa [hs, hu, mapNext] using hsu)
      | fault e => cases e
      | refused e => simp [hs, hu, mapNext] at hsu
    | fault e => cases e
    | refused e =>
      cases hu : step u with
      | next u' => simp [hs, hu, mapNext] at hsu
      | fault e' => cases e'
      | refused e' =>
        rw [run_succ_refused n hs, run_succ_refused n hu]
        simpa [hs, hu, mapNext] using hsu

/-! ## Erasures the port cannot see through -/

/-- `f` erases only what no port shows: it keeps what accesses are admitted by and return, and an update by the host
answers the same state, up to `f`, whether or not the state was erased before. -/
structure PortErasure (f : State → State) : Prop where
  part : ∀ s, (f s).part = s.part
  status : ∀ s, (f s).status = s.status
  hostOps : ∀ s, (f s).hostOps = s.hostOps
  portValue : ∀ s port, portValue (f s) port = portValue s port
  idem : ∀ s, f (f s) = f s
  pop : ∀ s rest, f { s with hostOps := rest } = { f s with hostOps := rest }
  reply : ∀ s v, f ((f s).reply v) = f (s.reply v)
  writeBlkin : ∀ s i b, f ((f s).writeBlkin i b) = f (s.writeBlkin i b)
  writeKeybuf : ∀ s i b, f ((f s).writeKeybuf i b) = f (s.writeKeybuf i b)
  waitOnce : ∀ s, f (waitOnce (f s)) = f (waitOnce s)
  resetEngine : ∀ s, f (resetEngine (f s)) = f (resetEngine s)

theorem portErasure_eraseScratch : PortErasure eraseScratch where
  part _ := rfl
  status _ := rfl
  hostOps _ := rfl
  portValue _ port := by cases port <;> rfl
  idem _ := rfl
  pop _ _ := rfl
  reply _ _ := rfl
  writeBlkin _ _ _ := rfl
  writeKeybuf _ _ _ := rfl
  waitOnce s := by cases h : s.status.busy <;> simp [Machine.waitOnce, eraseScratch, State.reply, h]
  resetEngine _ := rfl

theorem portErasure_eraseSecrets : PortErasure eraseSecrets where
  part _ := rfl
  status _ := rfl
  hostOps _ := rfl
  portValue _ port := by cases port <;> rfl
  idem _ := rfl
  pop _ _ := rfl
  reply _ _ := rfl
  writeBlkin _ _ _ := rfl
  writeKeybuf _ _ _ := rfl
  waitOnce s := by cases h : s.status.busy <;> simp [Machine.waitOnce, eraseSecrets, eraseScratch, State.reply, h]
  resetEngine _ := rfl

/-- Erasing first does not show, up to `f`, in what `act` answers. -/
def HidesErased (f : State → State) (act : State → Result) : Prop :=
  ∀ s, mapNext f (act (f s)) = mapNext f (act s)

section Port

variable {f : State → State} (hf : PortErasure f)
include hf

theorem PortErasure.memRead (off : Offset) (n : Nat) : HidesErased f (memRead off n) := by
  intro s
  simp only [Machine.memRead, hf.part, hf.portValue]
  cases portAt s.part off n with
  | error e => rfl
  | ok port => exact congrArg Host.Outcome.next (hf.reply s _)

/-- A write hides what is erased if the command does, where the write is one of a command. -/
theorem PortErasure.memWrite {off : Offset} {n : Nat} {w : Word}
    (hw : HostOp.memWrite off n w = writeCmd w → HidesErased f (executeWord w)) :
    HidesErased f (memWrite off n w) := by
  intro s
  simp only [Machine.memWrite, hf.part]
  cases hp : portAt s.part off n with
  | error e => rfl
  | ok port =>
    cases port with
    | cmd =>
      obtain ⟨rfl, rfl⟩ := portAt_cmd hp
      exact hw rfl s
    | blkin i => exact congrArg Host.Outcome.next (hf.writeBlkin s i _)
    | keybuf i => exact congrArg Host.Outcome.next (hf.writeKeybuf s i _)
    | status => rfl
    | result => rfl
    | size => rfl
    | rounds => rfl
    | blkout i => rfl

theorem PortErasure.runHostOp {op : HostOp} (hw : ∀ w, op = writeCmd w → HidesErased f (executeWord w)) :
    HidesErased f (runHostOp op) := by
  intro s
  simp only [Machine.runHostOp, hf.status]
  split
  · cases op with
    | memRead off n => exact hf.memRead off n s
    | memWrite off n w => exact hf.memWrite (fun h => hw w h) s
    | wait => exact congrArg Host.Outcome.next (hf.waitOnce s)
    | reset => exact congrArg Host.Outcome.next (hf.resetEngine s)
  · rfl

theorem PortErasure.step {s : State}
    (hw : ∀ w rest, s.hostOps = writeCmd w :: rest → HidesErased f (executeWord w)) :
    mapNext f (step (f s)) = mapNext f (step s) := by
  cases ho : s.hostOps with
  | nil =>
    simp only [Machine.step, hf.hostOps, ho]
    exact congrArg Host.Outcome.next (hf.idem s)
  | cons op rest =>
    rw [step_cons ho, step_cons ((hf.hostOps s).trans ho), ← hf.pop]
    exact hf.runHostOp (fun w h => hw w rest (h ▸ ho)) _

/-- Two states equal up to `f` step alike up to `f`. -/
theorem PortErasure.step_congr {s u : State} (h : f s = f u)
    (hw : ∀ w rest, s.hostOps = writeCmd w :: rest → HidesErased f (executeWord w)) :
    mapNext f (Machine.step s) = mapNext f (Machine.step u) := by
  have hops : u.hostOps = s.hostOps := by rw [← hf.hostOps u, ← h, hf.hostOps]
  rw [← hf.step hw, h, hf.step (fun w rest hu => hw w rest (hops ▸ hu))]

end Port

/-- A command word hides what is erased if its command does, and if a failure does. -/
theorem executeWord_hidesErased {f : State → State} {w : Word}
    (hraise : ∀ s e, f ((f s).raise e) = f (s.raise e))
    (hexec : ∀ i, decode w = .ok i → HidesErased f (exec i)) : HidesErased f (executeWord w) := by
  intro s
  unfold executeWord
  cases hd : decode w with
  | ok i => exact hexec i hd s
  | error e => exact congrArg Host.Outcome.next (hraise s _)

/-! ## The scratch registers -/

/-- PackKB writes KB before the first BUILDBLOCK reads it, so the schedule does not depend on the KB SETKEY finds
(43_key_schedule.md R177). -/
theorem blocks_ks_eq (keybuf : Memory) (rounds : Nat) (ks : KeyFile) (kb kb' : KeyBlock) (m : Nat) :
    (blocks keybuf rounds ⟨ks, kb⟩ m).ks = (blocks keybuf rounds ⟨ks, kb'⟩ m).ks := by
  induction m with
  | zero => rfl
  | succ m ih => simp only [blocks_succ, expandBlock, ih]

theorem eraseScratch_expandKey (s : State) :
    eraseScratch (eraseScratch s).expandKey = eraseScratch s.expandKey := by
  cases h : s.status.thin with
  | true => simp only [State.expandKey, eraseScratch, h, expandThin, if_true]
  | false =>
    simp only [State.expandKey, eraseScratch, h, expandGeneral_eq, Bool.false_eq_true, if_false,
      blocks_ks_eq s.keybuf s.rounds.toNat s.ks (Vector.replicate 4 0) s.kb]

theorem exec_hides_scratch (i : Instr) : HidesErased eraseScratch (exec i) := by
  intro s
  cases i with
  | construct level =>
    simp only [exec_construct, mapNext, apply_ite eraseScratch]
    rfl
  | setkey n =>
    have he : eraseScratch (eraseScratch s).expandKey.finish = eraseScratch s.expandKey.finish :=
      congrArg State.finish (eraseScratch_expandKey s)
    simp only [exec_setkey, mapNext, apply_ite eraseScratch, he]
    rfl
  | clear =>
    simp only [exec_clear, mapNext, apply_ite eraseScratch]
    rfl
  | encrypt n =>
    simp only [exec_encrypt, mapNext, apply_ite eraseScratch]
    rfl
  | decrypt n =>
    simp only [exec_decrypt, mapNext, apply_ite eraseScratch]
    rfl
  | keysize =>
    simp only [exec_keysize, mapNext, apply_ite eraseScratch]
    rfl
  | blocksize =>
    simp only [exec_blocksize, mapNext]
    rfl

theorem executeWord_hides_scratch (w : Word) : HidesErased eraseScratch (executeWord w) :=
  executeWord_hidesErased (fun _ _ => rfl) (fun i _ => exec_hides_scratch i)

theorem step_eraseScratch_congr {s u : State} (h : eraseScratch s = eraseScratch u) :
    mapNext eraseScratch (step s) = mapNext eraseScratch (step u) :=
  portErasure_eraseScratch.step_congr h (fun w _ _ => executeWord_hides_scratch w)

/-- Settles O43: steps keep two states equal up to scratch, and so do runs. -/
theorem scratchIsNotObservable : Obligations.ScratchIsNotObservable :=
  fun n _ _ h => run_congr (fun _ _ => step_eraseScratch_congr) n h

/-! ## The key material -/

/-- SETKEY writes only KS and scratch. -/
theorem eraseSecrets_expandKey (s : State) : eraseSecrets s.expandKey = eraseSecrets s := by
  unfold State.expandKey
  split <;> rfl

/-- Every command but ENCRYPT and DECRYPT hides KS, KEYBUF and scratch. -/
theorem exec_hides_secrets {i : Instr} (he : ∀ n, i ≠ .encrypt n) (hd : ∀ n, i ≠ .decrypt n) :
    HidesErased eraseSecrets (exec i) := by
  intro s
  cases i with
  | construct level =>
    simp only [exec_construct, mapNext, apply_ite eraseSecrets]
    rfl
  | setkey n =>
    have hk (u : State) : eraseSecrets u.expandKey.finish = eraseSecrets u.finish :=
      congrArg State.finish (eraseSecrets_expandKey u)
    simp only [exec_setkey, mapNext, apply_ite eraseSecrets, hk]
    rfl
  | clear =>
    simp only [exec_clear, mapNext, apply_ite eraseSecrets]
    rfl
  | encrypt n => exact absurd rfl (he n)
  | decrypt n => exact absurd rfl (hd n)
  | keysize =>
    simp only [exec_keysize, mapNext, apply_ite eraseSecrets]
    rfl
  | blocksize =>
    simp only [exec_blocksize, mapNext]
    rfl

/-- Settles O42: every host operation but a cipher command hides the key material, so two states equal without it step
to states equal without it. -/
theorem keyMaterialShowsOnlyThroughTheCipher : Obligations.KeyMaterialShowsOnlyThroughTheCipher := by
  intro s u h hc
  refine portErasure_eraseSecrets.step_congr h fun w rest ho => ?_
  have hw : ¬ RunsCipher (writeCmd w) := hc _ rest ho
  refine executeWord_hidesErased (fun _ _ => rfl) fun i hi => exec_hides_secrets ?_ ?_
  · rintro n rfl
    exact hw ⟨w, n, rfl, .inl hi⟩
  · rintro n rfl
    exact hw ⟨w, n, rfl, .inr hi⟩

end Sys2Proof.Machine

/-! # What one command and one step can do

The exits of a command, and the one way each register changes: the writers of every register, STATUS over a step, and
the invariant. -/

namespace Sys2Proof.Machine

open Claims

/-! ## The exits of a command -/

/-- How a command may end: it fails with an error, or it succeeds with what its rule writes. -/
inductive CommandEnds (s : State) : Instr → State → Prop where
  | failed (i : Instr) (e : ErrCode) : CommandEnds s i (s.raise e)
  | construct {level : Int} {g : Geometry} (hg : levelGeometry s.part level = .ok g) :
      CommandEnds s (.construct level) (s.configure g).zeroSchedule.finish
  | setkey {n : Nat} (hc : s.status.cfg = true) (hn : n = 8 * s.size.toNat) :
      CommandEnds s (.setkey n) s.expandKey.finish
  | clear (hc : s.status.cfg = true) : CommandEnds s .clear s.zeroSchedule.finish
  | encrypt (hc : s.status.cfg = true) : CommandEnds s (.encrypt 8)
      (s.storeOutput (encryptRounds s.ks s.rounds.toNat (loadBlock s.blkin)) (s.rounds.toNat - 2)).finish
  | decrypt (hc : s.status.cfg = true) : CommandEnds s (.decrypt 8)
      (s.storeOutput (decryptRounds s.ks s.rounds.toNat (loadBlock s.blkin)) 1).finish
  | keysize (hc : s.status.cfg = true) :
      CommandEnds s .keysize (s.setResult (BitVec.ofNat 32 (8 * s.size.toNat))).finish
  | blocksize : CommandEnds s .blocksize (s.setResult 8).finish

/-- A command that needs a configured engine fails on a bare one with NoInstance (60_exceptions.md R243). -/
theorem exec_noInstance {i : Instr} {s : State} (hi : needsInstance i) (hc : s.status.cfg = false) :
    exec i s = .next (s.raise .noInstance) := by
  cases i with
  | construct level => exact hi.elim
  | setkey n => rw [exec_setkey, if_pos hc]
  | clear => rw [exec_clear, if_pos hc]
  | encrypt n => rw [exec_encrypt, if_pos hc]
  | decrypt n => rw [exec_decrypt, if_pos hc]
  | keysize => rw [exec_keysize, if_pos hc]
  | blocksize => exact hi.elim

theorem exec_construct_ends (level : Int) (s : State) :
    ∃ t, exec (.construct level) s = .next t ∧ CommandEnds s (.construct level) t := by
  rcases levelGeometry_cases s.part level with ⟨h, hg⟩ | ⟨h1, h2, hg⟩ | ⟨h2, h1, hg⟩
  · exact ⟨_, by rw [exec_construct, if_pos h], .construct hg⟩
  · exact ⟨_, by rw [exec_construct, if_neg (by omega), if_neg (by omega)], .construct hg⟩
  · exact ⟨_, by rw [exec_construct, if_neg (by omega), if_pos h2], .failed _ _⟩

/-- Every command answers a next state, in one of its exits. -/
theorem exec_ends (i : Instr) (s : State) : ∃ t, exec i s = .next t ∧ CommandEnds s i t := by
  by_cases hno : needsInstance i ∧ s.status.cfg = false
  · exact ⟨_, exec_noInstance hno.1 hno.2, .failed _ _⟩
  have ready (hi : needsInstance i) : ¬ s.status.cfg = false := fun hc => hno ⟨hi, hc⟩
  cases i with
  | construct level => exact exec_construct_ends level s
  | setkey n =>
    have hc := ready trivial
    by_cases hn : n = 8 * s.size.toNat
    · exact ⟨_, by rw [exec_setkey, if_neg hc, if_pos hn], .setkey (by simpa using hc) hn⟩
    · exact ⟨_, by rw [exec_setkey, if_neg hc, if_neg hn], .failed _ _⟩
  | clear =>
    have hc := ready trivial
    exact ⟨_, by rw [exec_clear, if_neg hc], .clear (by simpa using hc)⟩
  | encrypt n =>
    have hc := ready trivial
    by_cases hn : n = 8
    · subst hn
      exact ⟨_, by rw [exec_encrypt, if_neg hc, if_pos rfl], .encrypt (by simpa using hc)⟩
    · exact ⟨_, by rw [exec_encrypt, if_neg hc, if_neg hn], .failed _ _⟩
  | decrypt n =>
    have hc := ready trivial
    by_cases hn : n = 8
    · subst hn
      exact ⟨_, by rw [exec_decrypt, if_neg hc, if_pos rfl], .decrypt (by simpa using hc)⟩
    · exact ⟨_, by rw [exec_decrypt, if_neg hc, if_neg hn], .failed _ _⟩
  | keysize =>
    have hc := ready trivial
    exact ⟨_, by rw [exec_keysize, if_neg hc], .keysize (by simpa using hc)⟩
  | blocksize => exact ⟨_, exec_blocksize s, .blocksize⟩

theorem commandEnds_of_exec {i : Instr} {s t : State} (h : exec i s = .next t) : CommandEnds s i t := by
  obtain ⟨u, hu, hend⟩ := exec_ends i s
  rw [h] at hu
  cases hu
  exact hend

/-- A command word ends as its command does, or fails with IllegalCommand. -/
theorem executeWord_ends {w : Word} {s t : State} (h : executeWord w s = .next t) :
    (∃ i, decode w = .ok i ∧ CommandEnds s i t) ∨ t = s.raise .illegalCommand := by
  rcases executeWord_cases w s with ⟨i, hi, he⟩ | ⟨e, -, he⟩
  · exact .inl ⟨i, hi, commandEnds_of_exec (he ▸ h)⟩
  · exact .inr (Host.Outcome.next.inj (h.symm.trans he))

/-! ## The writers of each register -/

/-- Settles O11: each exit of a command changes only the registers its rule writes. -/
theorem eachRegisterHasItsWriters : Obligations.EachRegisterHasItsWriters := by
  intro w s t h
  rcases executeWord_ends h with ⟨i, hd, hend⟩ | rfl
  · cases hend with
    | failed i e => simp
    | construct hg => simp [hd]
    | setkey hc hn => simp [hd]
    | clear hc => simp [hd]
    | encrypt hc => simp [hd]
    | decrypt hc => simp [hd]
    | keysize hc => simp [hd]
    | blocksize => simp [hd]
  · simp

/-! ## STATUS over a command and over a step -/

/-- A command fails, and records it, or succeeds, and keeps the record; CFG changes by a CONSTRUCT that succeeds, to 1
(10_state.md R26, R28). -/
theorem CommandEnds.status {s t : State} {i : Instr} (h : CommandEnds s i t) :
    (t.status.err ≠ 0 ∧ t.status.eany = true ∧ t.status.cfg = s.status.cfg) ∨
    (t.status.err = 0 ∧ t.status.eany = s.status.eany ∧
      (((∃ level, i = .construct level) ∧ t.status.cfg = true) ∨
        ((∀ level, i ≠ .construct level) ∧ t.status.cfg = s.status.cfg))) := by
  cases h with
  | failed i e => exact .inl (by simp)
  | construct hg => exact .inr (by simp)
  | setkey hc hn => exact .inr (by simp)
  | clear hc => exact .inr (by simp)
  | encrypt hc => exact .inr (by simp)
  | decrypt hc => exact .inr (by simp)
  | keysize hc => exact .inr (by simp)
  | blocksize => exact .inr (by simp)

/-- Over a command word EANY records a failure and keeps its value over a success, and a CFG of 1 stays. -/
theorem executeWord_status {w : Word} {s t : State} (h : executeWord w s = .next t) :
    (t.status.err ≠ 0 → t.status.eany = true) ∧ (t.status.err = 0 → t.status.eany = s.status.eany) ∧
      (s.status.cfg = true → t.status.cfg = true) := by
  rcases executeWord_ends h with ⟨i, -, hend⟩ | rfl
  · rcases hend.status with ⟨herr, hany, hcfg⟩ | ⟨herr, hany, ⟨-, hcfg⟩ | ⟨-, hcfg⟩⟩
    · exact ⟨fun _ => hany, fun h0 => absurd h0 herr, hcfg.trans⟩
    · exact ⟨fun hne => absurd herr hne, fun _ => hany, fun _ => hcfg⟩
    · exact ⟨fun hne => absurd herr hne, fun _ => hany, hcfg.trans⟩
  · simp

/-- The access of a command word reaches CMD. -/
theorem portAt_of_writeCmd {p : Part} {off : Offset} {n : Nat} {w w' : Word}
    (h : HostOp.memWrite off n w = writeCmd w') : portAt p off n = .ok .cmd := by
  cases h
  rfl

/-- STATUS changes by a reset or by a command word, and in no other step. -/
theorem step_status {s t : State} (h : step s = .next t) :
    (∃ rest, s.hostOps = .reset :: rest ∧ t.status = Status.reset) ∨
    (∃ w rest, s.hostOps = writeCmd w :: rest ∧ executeWord w { s with hostOps := rest } = .next t) ∨
    ((∀ rest, s.hostOps ≠ .reset :: rest) ∧ (∀ w rest, s.hostOps ≠ writeCmd w :: rest) ∧ t.status = s.status) := by
  rcases step_cases h with ⟨ho, rfl⟩ | ⟨op, rest, ho, hrun⟩
  · exact .inr (.inr (by simp [ho]))
  have noCmd {off n w w'} {port : Port} (hp : portAt s.part off n = .ok port) (hport : port ≠ .cmd) :
      HostOp.memWrite off n w ≠ writeCmd w' :=
    fun hc => hport (Except.ok.inj (hp.symm.trans (portAt_of_writeCmd hc)))
  rcases runHostOp_cases hrun with ⟨off, n, port, rfl, -, rfl⟩ | ⟨off, n, w, rfl, hp, hw⟩ |
    ⟨off, n, w, i, rfl, hp, rfl⟩ | ⟨off, n, w, i, rfl, hp, rfl⟩ | ⟨rfl, rfl⟩ | ⟨rfl, rfl⟩
  · exact .inr (.inr (by simp [ho, writeCmd]))
  · obtain ⟨rfl, rfl⟩ := portAt_cmd hp
    exact .inr (.inl ⟨w, rest, ho, hw⟩)
  · exact .inr (.inr ⟨by simp [ho], fun w' rest' hc => noCmd hp nofun (List.cons.inj (ho.symm.trans hc)).1, rfl⟩)
  · exact .inr (.inr ⟨by simp [ho], fun w' rest' hc => noCmd hp nofun (List.cons.inj (ho.symm.trans hc)).1, rfl⟩)
  · exact .inr (.inr (by simp [ho, writeCmd]))
  · exact .inl ⟨rest, ho, rfl⟩

/-- Settles O9: only a command word that fails sets EANY, and only a reset clears it. -/
theorem errorRecordIsSticky : Obligations.ErrorRecordIsSticky := by
  intro s t h
  rcases step_status h with ⟨rest, ho, ht⟩ | ⟨w, rest, ho, hw⟩ | ⟨hr, hc, ht⟩
  · exact ⟨fun _ _ => by rw [ht]; rfl, fun hr => absurd ho (hr rest)⟩
  · obtain ⟨hfail, hok, -⟩ := executeWord_status hw
    refine ⟨fun _ hr => by simp [ho, writeCmd] at hr, fun _ => ⟨fun hs => ?_, fun _ _ _ => ⟨hfail, hok⟩,
      fun hc => absurd ho (hc w rest)⟩⟩
    by_cases herr : t.status.err = 0
    · exact (hok herr).trans hs
    · exact hfail herr
  · refine ⟨fun rest ho => absurd ho (hr rest), fun _ => ⟨fun hs => ht ▸ hs, fun w rest ho => absurd ho (hc w rest),
      fun _ => by rw [ht]⟩⟩

/-- Settles O10: the exits of a command say which writes CFG, and a step that is no reset runs a command or keeps
STATUS. -/
theorem configuredOnlyByConstruct : Obligations.ConfiguredOnlyByConstruct := by
  refine ⟨fun _ => rfl, fun i s t h => ⟨?_, ?_, fun hi hc => ?_⟩, fun s t h hr hs => ?_⟩
  · rintro ⟨level, rfl⟩ herr
    rcases (commandEnds_of_exec h).status with ⟨hne, -, -⟩ | ⟨-, -, ⟨-, hcfg⟩ | ⟨hi, -⟩⟩
    · exact absurd herr hne
    · exact hcfg
    · exact absurd rfl (hi level)
  · intro hor
    rcases (commandEnds_of_exec h).status with ⟨-, -, hcfg⟩ | ⟨herr, -, ⟨⟨level, hi⟩, -⟩ | ⟨-, hcfg⟩⟩
    · exact hcfg
    · exact hor.elim (fun hno => absurd hi (hno level)) (fun hne => absurd herr hne)
    · exact hcfg
  · rw [exec_noInstance hi hc] at h
    exact (Host.Outcome.next.inj h).symm
  · rcases step_status h with ⟨rest, ho, -⟩ | ⟨w, rest, -, hw⟩ | ⟨-, -, ht⟩
    · exact absurd ho (hr rest)
    · obtain ⟨-, -, hcfg⟩ := executeWord_status hw
      exact hcfg hs
    · rw [ht, hs]

end Sys2Proof.Machine

/-! # The invariant

It holds at reset, every update of the host's side and every exit of a command keeps it, and it fixes the geometry of
a configured engine and the extent of its schedule. -/

namespace Sys2Proof.Machine

open Claims

/-! ## The invariant at reset -/

theorem State.inv_resetOf {p : Part} (hp : p.wf) : (State.resetOf p).Inv where
  part := hp
  idle := rfl
  err := Nat.zero_le 5
  eany h := absurd rfl h
  inst := ⟨nofun, fun _ => ⟨rfl, rfl, rfl⟩⟩
  keybufWf := Cells.wf_nil 0
  keybufRange := nofun
  ksWf := Cells.wf_nil RoundKey.zero
  ksRange := nofun
  ksNarrow := nofun
  roundIdx := Nat.zero_le _

/-- Settles O45: the reference part is one of the parts within the bounds of R6. -/
theorem invariantAtReset : Obligations.InvariantAtReset :=
  ⟨fun _ hp => State.inv_resetOf hp, State.inv_resetOf (by decide)⟩

/-! ## What the invariant says about a configured engine -/

/-- A configured engine is thin with one key block and 8 rounds, or has SIZE key blocks and 16·SIZE rounds. -/
theorem State.Inv.geometry {s : State} (h : s.Inv) (hc : s.status.cfg = true) :
    1 ≤ s.size.toNat ∧ s.size.toNat ≤ s.part.levelMax ∧
      ((s.status.thin = true ∧ s.size.toNat = 1 ∧ s.rounds.toNat = 8) ∨
        (s.status.thin = false ∧ s.rounds.toNat = 16 * s.size.toNat)) := by
  obtain ⟨hlo, -⟩ := h.part
  rcases h.inst.configured hc with ⟨ht, hs, hr⟩ | ⟨ht, h1, h2, hr⟩
  · exact ⟨by omega, by omega, .inl ⟨ht, hs, hr⟩⟩
  · exact ⟨h1, h2, .inr ⟨ht, hr⟩⟩

/-- A configured engine has at most ROUNDS_MAX rounds. -/
theorem State.Inv.rounds_le {s : State} (h : s.Inv) (hc : s.status.cfg = true) :
    s.rounds.toNat ≤ s.part.roundsMax := by
  obtain ⟨hlo, hhi, ⟨-, hs, hr⟩ | ⟨-, hr⟩⟩ := h.geometry hc <;> simp only [Part.roundsMax] <;> omega

/-- Settles O46, by the two forms a configured engine has; KS is zero from ROUNDS on because no entry is
listed there. -/
theorem instanceGeometry : Obligations.InstanceGeometry := by
  intro s h
  refine ⟨fun hc => ?_, fun q hq => Cells.read_of_bound _ h.ksRange hq, h.inst.bare⟩
  obtain ⟨hlo, hhi, ⟨ht, hs, hr⟩ | ⟨ht, hr⟩⟩ := h.geometry hc
  · exact ⟨by simp [ht, hr], by omega, fun _ => hs, by simp [ht], hlo, hhi⟩
  · have h8 : s.rounds.toNat ≠ 8 := by omega
    exact ⟨by simp [ht, h8], by omega, by simp [ht], fun _ => hr, hlo, hhi⟩

/-! ## Updates that keep the invariant -/

section Updates

variable {s : State} (h : s.Inv)
include h

/-- The invariant does not speak of RESULT, the block buffers, the scratch words and the host's side. -/
theorem State.Inv.congr {t : State} (hpart : t.part = s.part) (hstatus : t.status = s.status)
    (hsize : t.size = s.size) (hrounds : t.rounds = s.rounds) (hkeybuf : t.keybuf = s.keybuf) (hks : t.ks = s.ks)
    (hidx : t.roundIdx ≤ t.part.roundsMax) : t.Inv where
  part := hpart ▸ h.part
  idle := hstatus ▸ h.idle
  err := hstatus ▸ h.err
  eany := hstatus ▸ h.eany
  inst := ⟨by rw [hpart, hstatus, hsize, hrounds]; exact h.inst.configured,
    by rw [hstatus, hsize, hrounds]; exact h.inst.bare⟩
  keybufWf := hkeybuf ▸ h.keybufWf
  keybufRange := by rw [hkeybuf, hpart]; exact h.keybufRange
  ksWf := hks ▸ h.ksWf
  ksRange := by rw [hks, hrounds]; exact h.ksRange
  ksNarrow := hks ▸ h.ksNarrow
  roundIdx := hidx

theorem State.Inv.setHostOps (ops : List HostOp) : ({ s with hostOps := ops }).Inv :=
  h.congr rfl rfl rfl rfl rfl rfl h.roundIdx

theorem State.Inv.reply (v : Reply) : (s.reply v).Inv := h.congr rfl rfl rfl rfl rfl rfl h.roundIdx

theorem State.Inv.waitOnce : (waitOnce s).Inv :=
  h.congr (by simp) (by simp) (by simp) (by simp) (by simp) (by simp) (by simpa using h.roundIdx)

theorem State.Inv.resetEngine : (resetEngine s).Inv :=
  have h0 := State.inv_resetOf h.part
  h0.congr rfl rfl rfl rfl rfl rfl h0.roundIdx

theorem State.Inv.writeBlkin (i : Fin 8) (b : Byte) : (s.writeBlkin i b).Inv :=
  h.congr rfl rfl rfl rfl rfl rfl h.roundIdx

theorem State.Inv.writeKeybuf {i : Nat} (hi : i < s.part.keybufBytes) (b : Byte) : (s.writeKeybuf i b).Inv where
  __ := h
  inst := ⟨h.inst.configured, h.inst.bare⟩
  keybufWf := Memory.write_wf h.keybufWf i b
  keybufRange c hc := by
    rcases Cells.mem_write 0 hc with rfl | hc
    · exact hi
    · exact h.keybufRange c hc

theorem State.Inv.setResult (v : Word) : (s.setResult v).Inv := h.congr rfl rfl rfl rfl rfl rfl h.roundIdx

theorem State.Inv.storeOutput (x : Halves) {n : Nat} (hn : n ≤ s.part.roundsMax) : (s.storeOutput x n).Inv :=
  h.congr rfl rfl rfl rfl rfl rfl hn

theorem State.Inv.raise (e : ErrCode) : (s.raise e).Inv where
  __ := h
  idle := rfl
  err := e.code_le
  eany _ := rfl
  inst := ⟨h.inst.configured, h.inst.bare⟩

theorem State.Inv.finish : s.finish.Inv where
  __ := h
  idle := rfl
  err := Nat.zero_le 5
  eany hne := absurd rfl hne
  inst := ⟨h.inst.configured, h.inst.bare⟩

theorem State.Inv.zeroSchedule : s.zeroSchedule.Inv where
  __ := h
  inst := ⟨h.inst.configured, h.inst.bare⟩
  ksWf := Cells.wf_nil RoundKey.zero
  ksRange := nofun
  ksNarrow := nofun

end Updates

/-! ## CONSTRUCT and SETKEY keep the invariant -/

/-- SIZE, ROUNDS and THIN of the level a CONSTRUCT selects; on a part within R6 no register wraps. -/
theorem State.instanceInv_configure {s : State} {level : Int} {g : Geometry} (hp : s.part.wf)
    (hg : levelGeometry s.part level = .ok g) : (s.configure g).InstanceInv where
  bare := nofun
  configured _ := by
    obtain ⟨hlo, hhi⟩ := hp
    rcases levelGeometry_cases s.part level with ⟨-, h⟩ | ⟨h1, h2, h⟩ | ⟨-, -, h⟩
    · obtain rfl := Except.ok.inj (hg.symm.trans h)
      exact .inl ⟨rfl, rfl, rfl⟩
    · obtain rfl := Except.ok.inj (hg.symm.trans h)
      refine .inr ⟨rfl, ?_⟩
      simp only [State.configure_size, State.configure_rounds, State.configure_part, BitVec.toNat_ofNat]
      omega
    · exact absurd (hg.symm.trans h) nofun

theorem State.Inv.construct {s : State} {level : Int} {g : Geometry} (h : s.Inv)
    (hg : levelGeometry s.part level = .ok g) : (s.configure g).zeroSchedule.Inv where
  __ := h
  inst := ⟨(State.instanceInv_configure h.part hg).configured, nofun⟩
  ksWf := Cells.wf_nil RoundKey.zero
  ksRange := nofun
  ksNarrow := nofun

theorem buildRound_key_narrow (kr : Nat) (kb : KeyBlock) : (buildRound kr kb).key.narrow :=
  ⟨buildRound_narrow kr kb 0, buildRound_narrow kr kb 1, buildRound_narrow kr kb 2⟩

/-- Every entry of KS after the expansion is a built one below ROUNDS, or an old one. -/
theorem State.expandKey_mem {s : State} (h : s.Inv) (hc : s.status.cfg = true) {x : Nat × RoundKey}
    (hx : x ∈ s.expandKey.ks) : (x.1 < s.rounds.toNat ∧ ∃ kr kb, x.2 = (buildRound kr kb).key) ∨ x ∈ s.ks := by
  obtain ⟨-, -, ⟨ht, -, hr⟩ | ⟨ht, hr⟩⟩ := h.geometry hc
  · simp only [State.expandKey, ht, if_true, expandThin] at hx
    rcases buildBlock_mem hx with ⟨-, hlt, hkey⟩ | hold
    · exact .inl ⟨by omega, hkey⟩
    · exact .inr hold
  · simp only [State.expandKey, ht, Bool.false_eq_true, if_false, expandGeneral_eq, hr] at hx
    rw [hr]
    exact blocks_mem le_rfl hx

theorem State.expandKey_ks_wf {s : State} (h : s.ks.wf) : s.expandKey.ks.wf := by
  unfold State.expandKey
  split
  · exact buildBlock_wf h
  · exact blocks_wf h _

theorem State.Inv.expandKey {s : State} (h : s.Inv) (hc : s.status.cfg = true) : s.expandKey.Inv where
  part := by simpa using h.part
  idle := by simpa using h.idle
  err := by simpa using h.err
  eany := by simpa using h.eany
  inst := ⟨by simpa using h.inst.configured, by simpa using h.inst.bare⟩
  keybufWf := by simpa using h.keybufWf
  keybufRange := by simpa using h.keybufRange
  ksWf := State.expandKey_ks_wf h.ksWf
  ksRange x hx := by
    rw [State.expandKey_rounds]
    rcases State.expandKey_mem h hc hx with ⟨hlt, -⟩ | hold
    · exact hlt
    · exact h.ksRange x hold
  ksNarrow x hx := by
    rcases State.expandKey_mem h hc hx with ⟨-, kr, kb, hkey⟩ | hold
    · rw [hkey]
      exact buildRound_key_narrow kr kb
    · exact h.ksNarrow x hold
  roundIdx := by
    obtain ⟨hlo, hhi, -⟩ := h.geometry hc
    have hold := h.roundIdx
    rw [State.expandKey_part]
    unfold State.expandKey
    simp only [Part.roundsMax] at hold ⊢
    split
    · exact hold
    · show s.size.toNat - 1 ≤ 16 * s.part.levelMax
      omega

/-! ## Every command and every step keep the invariant -/

theorem CommandEnds.inv {s t : State} {i : Instr} (hend : CommandEnds s i t) (h : s.Inv) : t.Inv := by
  cases hend with
  | failed i e => exact h.raise e
  | construct hg => exact (h.construct hg).finish
  | setkey hc hn => exact (h.expandKey hc).finish
  | clear hc => exact h.zeroSchedule.finish
  | encrypt hc => exact (h.storeOutput _ ((Nat.sub_le _ 2).trans (h.rounds_le hc))).finish
  | decrypt hc =>
    have h1 : 1 ≤ s.part.roundsMax := by
      obtain ⟨hlo, -⟩ := h.part
      simp only [Part.roundsMax]
      omega
    exact (h.storeOutput _ h1).finish
  | keysize hc => exact (h.setResult _).finish
  | blocksize => exact (h.setResult _).finish

theorem executeWord_inv {w : Word} {s t : State} (h : s.Inv) (hw : executeWord w s = .next t) : t.Inv := by
  rcases executeWord_ends hw with ⟨i, -, hend⟩ | rfl
  · exact hend.inv h
  · exact h.raise _

/-- The byte of KEYBUF an access reaches lies within KEYBUF_BYTES. -/
theorem portAt_keybuf_lt {p : Part} {off : Offset} {n i : Nat} (h : portAt p off n = .ok (.keybuf i)) :
    i < p.keybufBytes := by
  rcases portAt_ok h with ⟨-, -, -, hp⟩ | ⟨-, -, -, hp⟩ | ⟨-, -, -, hp⟩ | ⟨-, -, hlt, hp⟩
  · unfold registerAt at hp
    split at hp <;> cases hp
  · cases hp
  · cases hp
  · exact Port.keybuf.inj hp ▸ hlt

theorem runHostOp_inv {op : HostOp} {s t : State} (h : s.Inv) (hrun : runHostOp op s = .next t) : t.Inv := by
  rcases runHostOp_cases hrun with ⟨off, n, port, -, -, rfl⟩ | ⟨off, n, w, -, -, hw⟩ |
    ⟨off, n, w, i, -, -, rfl⟩ | ⟨off, n, w, i, -, hp, rfl⟩ | ⟨-, rfl⟩ | ⟨-, rfl⟩
  · exact h.reply _
  · exact executeWord_inv h hw
  · exact h.writeBlkin i _
  · exact h.writeKeybuf (portAt_keybuf_lt hp) _
  · exact h.waitOnce
  · exact h.resetEngine

/-- Settles O47: idling keeps the state, and every host operation keeps the invariant. -/
theorem everyStepKeepsTheInvariant : Obligations.EveryStepKeepsTheInvariant := by
  intro s t h hstep
  rcases step_cases hstep with ⟨-, rfl⟩ | ⟨op, rest, -, hrun⟩
  · exact h
  · exact runHostOp_inv (h.setHostOps rest) hrun

end Sys2Proof.Machine

/-! # The cipher loops undo each other (45_cipher_engine.md R222) -/

namespace Sys2Proof.Machine

/-- The decryption loop on the half-blocks exchanged undoes the encryption loop: its first pair of rounds undoes the
last one. -/
theorem decryptRounds_encryptRounds (ks : KeyFile) (pairs : Nat) (h : Halves) :
    decryptRounds ks (2 * pairs) ⟨(encryptRounds ks (2 * pairs) h).r, (encryptRounds ks (2 * pairs) h).l⟩ =
      ⟨h.r, h.l⟩ := by
  induction pairs with
  | zero => rfl
  | succ n ih => rw [encryptRounds_succ, decryptRounds_succ, feistelPair_undo, ih]

/-- The encryption loop on the half-blocks exchanged undoes the decryption loop: its last pair of rounds undoes the
first one. -/
theorem encryptRounds_decryptRounds (ks : KeyFile) (pairs : Nat) (h : Halves) :
    encryptRounds ks (2 * pairs) ⟨(decryptRounds ks (2 * pairs) h).r, (decryptRounds ks (2 * pairs) h).l⟩ =
      ⟨h.r, h.l⟩ := by
  induction pairs generalizing h with
  | zero => rfl
  | succ n ih => rw [decryptRounds_succ, encryptRounds_succ, ih, feistelPair_undo]

/-- A configured engine has an even number of rounds. -/
theorem State.InstanceInv.rounds_even {s : State} (h : s.InstanceInv) (hc : s.status.cfg = true) :
    ∃ pairs, s.rounds.toNat = 2 * pairs := by
  rcases h.configured hc with ⟨-, -, hr⟩ | ⟨-, -, -, hr⟩
  · exact ⟨4, hr⟩
  · exact ⟨8 * s.size.toNat, by omega⟩

theorem exec_encrypt_ready {s : State} (hc : s.status.cfg = true) : exec (.encrypt 8) s = .next
    (s.storeOutput (encryptRounds s.ks s.rounds.toNat (loadBlock s.blkin)) (s.rounds.toNat - 2)).finish := by
  rw [exec_encrypt, if_neg (by simp [hc]), if_pos rfl]

theorem exec_decrypt_ready {s : State} (hc : s.status.cfg = true) : exec (.decrypt 8) s = .next
    (s.storeOutput (decryptRounds s.ks s.rounds.toNat (loadBlock s.blkin)) 1).finish := by
  rw [exec_decrypt, if_neg (by simp [hc]), if_pos rfl]

/-- Settles O33: each command's loop starts from the other's half-blocks exchanged, and undoes it. -/
theorem cipherRoundTrip : Obligations.CipherRoundTrip := by
  intro s hc hinst
  obtain ⟨pairs, hr⟩ := hinst.rounds_even hc
  refine ⟨⟨_, _, exec_encrypt_ready hc, exec_decrypt_ready hc, ?_⟩,
    ⟨_, _, exec_decrypt_ready hc, exec_encrypt_ready hc, ?_⟩⟩
  · show storeBlock (decryptRounds s.ks s.rounds.toNat (loadBlock (storeBlock
      (encryptRounds s.ks s.rounds.toNat (loadBlock s.blkin))))) = s.blkin
    rw [hr, loadBlock_storeBlock, decryptRounds_encryptRounds, storeBlock_loadBlock]
  · show storeBlock (encryptRounds s.ks s.rounds.toNat (loadBlock (storeBlock
      (decryptRounds s.ks s.rounds.toNat (loadBlock s.blkin))))) = s.blkin
    rw [hr, loadBlock_storeBlock, encryptRounds_decryptRounds, storeBlock_loadBlock]

end Sys2Proof.Machine

/-! # The port: what an access does, and lists of accesses

The port each offset of the map names, one read on an idle engine, and the lists of accesses LOADBLK, READBLK and
LOADKEY stand for (30_encoding.md R90). -/

namespace Sys2Proof.Machine

open Claims

/-! ## The map of the port, from offset to port (20_memory.md R61) -/

section Map

variable (p : Part) {off : Offset}

theorem portAt_register {k : Nat} (hk : k < 5) (ho : off.toNat = 4 * k) : portAt p off 4 = .ok (registerAt k) := by
  rw [portAt, if_pos (by omega), if_pos (by omega), ho, Nat.mul_div_cancel_left k (by omega)]
  rfl

theorem portAt_blkin (i : Fin 8) (ho : off.toNat = 0x020 + i.val) : portAt p off 1 = .ok (.blkin i) := by
  have hi := i.isLt
  have hfin : Fin.ofNat 8 (0x020 + i.val - 0x020) = i := Fin.ext (by simp)
  rw [portAt, if_neg (by omega), if_neg (by omega), if_pos (by omega), ho, hfin]
  rfl

theorem portAt_blkout (i : Fin 8) (ho : off.toNat = 0x028 + i.val) : portAt p off 1 = .ok (.blkout i) := by
  have hi := i.isLt
  have hfin : Fin.ofNat 8 (0x028 + i.val - 0x028) = i := Fin.ext (by simp)
  rw [portAt, if_neg (by omega), if_neg (by omega), if_neg (by omega), if_pos (by omega), ho, hfin]
  rfl

theorem portAt_keybuf {i : Nat} (hi : i < p.keybufBytes) (ho : off.toNat = 0x100 + i) :
    portAt p off 1 = .ok (.keybuf i) := by
  rw [portAt, if_neg (by omega), if_neg (by omega), if_neg (by omega), if_neg (by omega), if_neg (by omega),
    if_pos (by omega), ho, Nat.add_sub_cancel_left]
  rfl

end Map

/-! ## Reads -/

/-- STATUS as a number, by the place of each field (10_state.md R24, R30). -/
theorem Status.word_toNat (st : Status) : st.word.toNat =
    st.err.toNat + 16 * st.cfg.toNat + 32 * st.thin.toNat + 64 * st.eany.toNat + 128 * st.busy.toNat := by
  obtain ⟨err, cfg, thin, eany, busy⟩ := st
  revert err cfg thin eany busy
  decide

/-- A read of an idle engine returns the value of the port it reaches. -/
theorem runHostOp_memRead {s : State} {off : Offset} {n : Nat} {port : Port} (hb : s.status.busy = false)
    (hp : portAt s.part off n = .ok port) : runHostOp (.memRead off n) s = .next (s.reply (portValue s port)) := by
  simp only [runHostOp, keepsDuty, hb, Bool.not_false, Bool.true_or, if_true, memRead, hp]

/-- A read that the map of R61 and R62 lists reaches a port. -/
theorem portAt_of_admittedRead {p : Part} {off : Offset} {n : Nat} (h : AdmittedRead p off.toNat n) :
    ∃ port, portAt p off n = .ok port := by
  rcases h with ⟨rfl, hoff⟩ | ⟨rfl, ⟨hlo, hhi⟩ | ⟨hlo, hhi⟩⟩
  · exact ⟨_, portAt_register p (k := off.toNat / 4) (by omega) (by omega)⟩
  · by_cases hin : off.toNat < 0x028
    · exact ⟨_, portAt_blkin p ⟨off.toNat - 0x020, by omega⟩ (by simp only; omega)⟩
    · exact ⟨_, portAt_blkout p ⟨off.toNat - 0x028, by omega⟩ (by simp only; omega)⟩
  · exact ⟨_, portAt_keybuf p (i := off.toNat - 0x100) (by rw [Part.keybufBytes]; omega) (by omega)⟩

/-- The width of an admitted read, by its offset. -/
theorem width_of_admittedRead {p : Part} {off n : Nat} (h : AdmittedRead p off n) :
    (off < 0x020 → n = 4) ∧ (0x020 ≤ off → n = 1) := by
  unfold AdmittedRead at h
  omega

/-- Settles O37: the read returns the value of the port at its offset, which the map gives. -/
theorem readsReturnTheNamedRegister : Obligations.ReadsReturnTheNamedRegister := by
  intro s rest off n hb ho hadm
  obtain ⟨port, hp⟩ := portAt_of_admittedRead hadm
  obtain ⟨hword, hbyte⟩ := width_of_admittedRead hadm
  have reg (k : Nat) (hk : k < 5) (h : off.toNat = 4 * k) : port = registerAt k := by
    have hm := portAt_register s.part hk h
    rw [← hword (by omega), hp] at hm
    exact Except.ok.inj hm
  have byte {q : Port} (hlo : 0x020 ≤ off.toNat) (hm : portAt s.part off 1 = .ok q) : port = q := by
    rw [← hbyte hlo, hp] at hm
    exact Except.ok.inj hm
  have hstep : step s = .next { s with hostOps := rest, replies := s.replies ++ [portValue s port] } :=
    (step_cons ho).trans (runHostOp_memRead hb hp)
  refine ⟨portValue s port, hstep, fun h => ?_, fun h => ⟨s.status.word, ?_, s.status.word_toNat⟩,
    fun h => ?_, fun h => ?_, fun h => ?_, fun i h => ?_, fun i h => ?_, fun h => ?_⟩
  · rw [reg 0 (by omega) h]; rfl
  · rw [reg 1 (by omega) h]; rfl
  · rw [reg 2 (by omega) h]; rfl
  · rw [reg 3 (by omega) h]; rfl
  · rw [reg 4 (by omega) h]; rfl
  · rw [byte (by omega) (portAt_blkin s.part i h)]; rfl
  · rw [byte (by omega) (portAt_blkout s.part i h)]; rfl
  · have hkey : off.toNat - 0x100 < s.part.keybufBytes := by
      unfold AdmittedRead at hadm
      rw [Part.keybufBytes]
      omega
    rw [byte (by omega) (portAt_keybuf s.part hkey (by omega))]; rfl

/-! ## Runs over a list of accesses -/

/-- The state with other pending operations. -/
def State.withHostOps (s : State) (ops : List HostOp) : State := { s with hostOps := ops }

theorem step_withHostOps (s : State) (op : HostOp) (rest : List HostOp) :
    step (s.withHostOps (op :: rest)) = runHostOp op (s.withHostOps rest) := step_cons rfl

/-- An update by one access that runs no command: the part and STATUS are untouched, and the pending operations do not
matter. -/
structure AccessUpdate (f : State → State) : Prop where
  part : ∀ s, (f s).part = s.part
  status : ∀ s, (f s).status = s.status
  withHostOps : ∀ s ops, f (s.withHostOps ops) = (f s).withHostOps ops

theorem accessUpdate_writeBlkin (i : Fin 8) (b : Byte) : AccessUpdate (State.writeBlkin · i b) :=
  ⟨fun _ => rfl, fun _ => rfl, fun _ _ => rfl⟩

theorem accessUpdate_writeKeybuf (i : Nat) (b : Byte) : AccessUpdate (State.writeKeybuf · i b) :=
  ⟨fun _ => rfl, fun _ => rfl, fun _ _ => rfl⟩

theorem accessUpdate_reply_blkout (i : Fin 8) : AccessUpdate (fun s => s.reply (.byte s.blkout[i])) :=
  ⟨fun _ => rfl, fun _ => rfl, fun _ _ => rfl⟩

/-- Pending accesses of which each does a known update run, one step each, to the composition of the updates. -/
theorem run_accesses {ι : Type} {op : ι → HostOp} {upd : ι → State → State} {p : Part} {l : List ι}
    (hupd : ∀ x ∈ l, AccessUpdate (upd x))
    (hrun : ∀ x ∈ l, ∀ s : State, s.part = p → s.status.busy = false → runHostOp (op x) s = .next (upd x s))
    (s : State) (hp : s.part = p) (hb : s.status.busy = false) (rest : List HostOp) :
    Host.Core.run core l.length (s.withHostOps (l.map op ++ rest)) =
      .next ((l.foldl (fun s x => upd x s) s).withHostOps rest) := by
  induction l generalizing s with
  | nil => rfl
  | cons x l ih =>
    simp only [List.forall_mem_cons] at hupd hrun
    obtain ⟨hx, hupd⟩ := hupd
    obtain ⟨hrunx, hrun⟩ := hrun
    have hstep : step (s.withHostOps (op x :: (l.map op ++ rest))) =
        .next ((upd x s).withHostOps (l.map op ++ rest)) := by
      rw [step_withHostOps, hrunx (s.withHostOps (l.map op ++ rest)) hp hb, hx.withHostOps]
    exact (run_succ_next _ hstep).trans (ih hupd hrun _ ((hx.part s).trans hp) (by rw [hx.status, hb]))

/-- A WRITE8 on an idle engine does what its port does with the byte (R90). -/
theorem runHostOp_write8Op {s : State} {off : Offset} {port : Port} (hb : s.status.busy = false)
    (hp : portAt s.part off 1 = .ok port) (b : Byte) :
    runHostOp (write8Op off b) s = portWrite (b.setWidth 32) s port := by
  simp only [write8Op, runHostOp, keepsDuty, hb, Bool.not_false, if_true, memWrite, hp]

/-- Byte writes at consecutive offsets, each to a port with a known update, compose the updates. -/
theorem run_writeBytes {base : Offset} {bytes : List Byte} {port : Nat → Port} {put : Nat → Byte → State → State}
    {s : State} (hport : ∀ i < bytes.length, portAt s.part (base + BitVec.ofNat 32 i) 1 = .ok (port i))
    (hput : ∀ i b, AccessUpdate (put i b))
    (hwrite : ∀ i b t, portWrite (BitVec.setWidth 32 b) t (port i) = .next (put i b t))
    (hb : s.status.busy = false) (rest : List HostOp) :
    Host.Core.run core bytes.length (s.withHostOps (writeBytes base bytes ++ rest)) =
      .next ((bytes.zipIdx.foldl (fun s x => put x.2 x.1 s) s).withHostOps rest) := by
  rw [writeBytes, List.mapIdx_eq_zipIdx_map, ← List.length_zipIdx (l := bytes) (i := 0)]
  refine run_accesses (fun x _ => hput x.2 x.1) (fun x hx t ht hbt => ?_) s rfl hb rest
  have hi : x.2 < bytes.length := by simpa using List.snd_lt_of_mem_zipIdx hx
  rw [runHostOp_write8Op hbt (ht ▸ hport x.2 hi), hwrite]

/-- The offset of byte i from a base, where the sum does not wrap. -/
theorem toNat_offset {base : Offset} {i : Nat} (h : base.toNat + i < 2 ^ 32) :
    (base + BitVec.ofNat 32 i).toNat = base.toNat + i := by
  rw [BitVec.toNat_add, BitVec.toNat_ofNat]
  omega

/-! ## LOADBLK and READBLK -/

theorem foldl_writeBlkin (s : State) (l : List (Byte × Nat)) :
    l.foldl (fun s x => s.writeBlkin (Fin.ofNat 8 x.2) x.1) s =
      { s with blkin := l.foldl (fun v x => v.set (Fin.ofNat 8 x.2) x.1) s.blkin } := by
  induction l generalizing s with
  | nil => rfl
  | cons x l ih => exact ih _

/-- Writing all eight bytes of a block, in order, gives the block. -/
theorem foldl_set_block (v block : Block) :
    block.toList.zipIdx.foldl (fun (v : Block) x => v.set (Fin.ofNat 8 x.2) x.1) v = block := by
  rw [block_eq block, block_eq v]
  rfl

theorem run_loadblk {s : State} (hb : s.status.busy = false) (block : Block) (rest : List HostOp) :
    Host.Core.run core 8 (s.withHostOps (writeBytes 0x020 block.toList ++ rest)) =
      .next ({ s with blkin := block }.withHostOps rest) := by
  have hlen : block.toList.length = 8 := by simp
  have hport (i : Nat) (hi : i < block.toList.length) :
      portAt s.part (0x020 + BitVec.ofNat 32 i) 1 = .ok (.blkin (Fin.ofNat 8 i)) := by
    have hval : (Fin.ofNat 8 i).val = i := Nat.mod_eq_of_lt (hlen ▸ hi)
    exact portAt_blkin _ _ (by rw [hval]; exact toNat_offset (by simp; omega))
  have hwrite (i : Nat) (b : Byte) (t : State) :
      portWrite (b.setWidth 32) t (.blkin (Fin.ofNat 8 i)) = .next (t.writeBlkin (Fin.ofNat 8 i) b) := by
    simp [portWrite]
  have h := run_writeBytes hport (fun _ _ => accessUpdate_writeBlkin _ _) hwrite hb rest
  rwa [foldl_writeBlkin, foldl_set_block, hlen] at h

theorem foldl_reply_blkout (s : State) (l : List Nat) :
    l.foldl (fun s i => s.reply (.byte s.blkout[Fin.ofNat 8 i])) s =
      { s with replies := s.replies ++ l.map (fun i => .byte s.blkout[Fin.ofNat 8 i]) } := by
  induction l generalizing s with
  | nil => rw [List.map_nil, List.append_nil]; rfl
  | cons i l ih =>
    rw [List.foldl_cons, ih, State.reply_replies, List.append_assoc]
    rfl

/-- The bytes of a block in order. -/
theorem map_range_block (b : Block) :
    (List.range 8).map (fun i => Reply.byte b[Fin.ofNat 8 i]) = b.toList.map Reply.byte := by
  rw [block_eq b]
  rfl

theorem run_readblk {s : State} (hb : s.status.busy = false) (rest : List HostOp) :
    Host.Core.run core 8
        (s.withHostOps ((List.range 8).map (fun i => .memRead (0x028 + BitVec.ofNat 32 i) 1) ++ rest)) =
      .next ({ s with replies := s.replies ++ s.blkout.toList.map Reply.byte }.withHostOps rest) := by
  rw [← map_range_block, ← foldl_reply_blkout]
  refine run_accesses (l := List.range 8) (fun i _ => accessUpdate_reply_blkout _) (fun i hi t _ ht => ?_)
    s rfl hb rest
  have hlt : i < 8 := List.mem_range.1 hi
  have hval : (Fin.ofNat 8 i).val = i := Nat.mod_eq_of_lt hlt
  exact runHostOp_memRead ht (portAt_blkout _ _ (by rw [hval]; exact toNat_offset (by simp; omega)))

/-- Settles O40: each write fills its byte of BLKIN, and each read returns its byte of BLKOUT. -/
theorem loadblkAndReadblkMoveABlock : Obligations.LoadblkAndReadblkMoveABlock := by
  intro s block hb
  exact ⟨⟨_, rfl, by simp [writeBytes], run_loadblk hb block s.hostOps⟩, ⟨_, rfl, rfl, run_readblk hb s.hostOps⟩⟩

/-! ## LOADKEY -/

/-- The bytes of the list stored, each at its index, in order. -/
def Memory.writeAll (m : Memory) (l : List (Byte × Nat)) : Memory := l.foldl (fun m x => m.write x.2 x.1) m

theorem Memory.writeAll_cons (m : Memory) (b : Byte) (i : Nat) (l : List (Byte × Nat)) :
    m.writeAll ((b, i) :: l) = (m.write i b).writeAll l := rfl

theorem foldl_writeKeybuf (s : State) (l : List (Byte × Nat)) :
    l.foldl (fun s x => s.writeKeybuf x.2 x.1) s = { s with keybuf := s.keybuf.writeAll l } := by
  induction l generalizing s with
  | nil => rfl
  | cons x l ih => exact ih _

/-- Bytes stored at consecutive indices from k, read back; every other byte as before. -/
theorem Memory.read_writeAll_zipIdx {m : Memory} (hm : m.wf) (bytes : List Byte) (k i : Nat) :
    (m.writeAll (bytes.zipIdx k)).read i =
      if h : k ≤ i ∧ i < k + bytes.length then bytes[i - k] else m.read i := by
  induction bytes generalizing m k with
  | nil => rw [dif_neg (by simp)]; rfl
  | cons b bytes ih =>
    rw [List.zipIdx_cons, Memory.writeAll_cons, ih (Memory.write_wf hm k b), Memory.read_write hm]
    by_cases hki : k = i
    · subst hki
      rw [dif_neg (by omega), if_pos rfl, dif_pos (by simp)]
      simp
    · by_cases h : k + 1 ≤ i ∧ i < k + 1 + bytes.length
      · rw [dif_pos h, dif_pos (by simp; omega), List.getElem_cons, dif_neg (by omega)]
        rfl
      · rw [dif_neg h, if_neg hki, dif_neg (by simp; omega)]

theorem run_loadkey {s : State} (hb : s.status.busy = false) (hp : s.part.wf) {key : List Byte}
    (hlen : key.length ≤ s.part.keybufBytes) (rest : List HostOp) :
    Host.Core.run core key.length (s.withHostOps (writeBytes 0x100 key ++ rest)) =
      .next ({ s with keybuf := s.keybuf.writeAll key.zipIdx }.withHostOps rest) := by
  have hport (i : Nat) (hi : i < key.length) :
      portAt s.part (0x100 + BitVec.ofNat 32 i) 1 = .ok (.keybuf i) := by
    refine portAt_keybuf _ (hi.trans_le hlen) (toNat_offset ?_)
    obtain ⟨-, hmax⟩ := hp
    simp only [Part.keybufBytes] at hlen
    simp
    omega
  have hwrite (i : Nat) (b : Byte) (t : State) :
      portWrite (b.setWidth 32) t (.keybuf i) = .next (t.writeKeybuf i b) := by
    simp [portWrite]
  rw [← foldl_writeKeybuf]
  exact run_writeBytes hport (fun _ _ => accessUpdate_writeKeybuf _ _) hwrite hb rest

/-- Settles O41: each write fills its byte of KEYBUF, and the bytes written are read back. -/
theorem loadkeyFillsTheKeyBuffer : Obligations.LoadkeyFillsTheKeyBuffer := by
  intro s key hb hpart hwf hlen
  refine ⟨_, _, rfl, run_loadkey hb hpart hlen s.hostOps, rfl, fun i => ?_⟩
  show (s.keybuf.writeAll key.zipIdx).read i = _
  rw [Memory.read_writeAll_zipIdx hwf]
  simp

end Sys2Proof.Machine

/-! # The port: which accesses complete, and what a step changes

An access completes where the map gives a port that takes it (20_memory.md R61–R64). A command word at CMD runs its
command, a byte write moves its byte, and every other step but a reset moves only the host's own side (R66, R74). -/

namespace Sys2Proof.Machine

open Claims

/-! ## Writes, and a command word at CMD -/

/-- On an idle engine a write does what its port does with the value. -/
theorem step_memWrite {s : State} {off : Offset} {n : Nat} {v : Word} {rest : List HostOp} {port : Port}
    (hb : s.status.busy = false) (ho : s.hostOps = .memWrite off n v :: rest) (hp : portAt s.part off n = .ok port) :
    step s = portWrite v { s with hostOps := rest } port := by
  simp only [step_cons ho, runHostOp, keepsDuty, hb, Bool.not_false, if_true, memWrite, hp]

/-- On an idle engine a write that the map gives no port is refused. -/
theorem step_memWrite_error {s : State} {off : Offset} {n : Nat} {v : Word} {rest : List HostOp} {e : Refusal}
    (hb : s.status.busy = false) (ho : s.hostOps = .memWrite off n v :: rest) (hp : portAt s.part off n = .error e) :
    step s = .refused e := by
  simp only [step_cons ho, runHostOp, keepsDuty, hb, Bool.not_false, if_true, memWrite, hp]

/-- On an idle engine a read that the map gives no port is refused. -/
theorem step_memRead_error {s : State} {off : Offset} {n : Nat} {rest : List HostOp} {e : Refusal}
    (hb : s.status.busy = false) (ho : s.hostOps = .memRead off n :: rest) (hp : portAt s.part off n = .error e) :
    step s = .refused e := by
  simp only [step_cons ho, runHostOp, keepsDuty, hb, Bool.not_false, Bool.true_or, if_true, memRead, hp]

theorem executeWord_of_decode_ok {w : Word} {i : Instr} (h : decode w = .ok i) (s : State) :
    executeWord w s = exec i s := by
  rw [executeWord, h]

theorem executeWord_of_decode_error {w : Word} {e : Illegal} (h : decode w = .error e) (s : State) :
    executeWord w s = .next (s.raise .illegalCommand) := by
  rw [executeWord, h]
  rfl

/-- A command word always ends in a next state. -/
theorem executeWord_next (w : Word) (s : State) : ∃ t, executeWord w s = .next t := by
  rcases executeWord_cases w s with ⟨i, -, he⟩ | ⟨e, -, he⟩
  · obtain ⟨t, ht, -⟩ := exec_ends i s
    exact ⟨t, he.trans ht⟩
  · exact ⟨_, he⟩

/-- Settles O6: the write reaches CMD, which executes the word. -/
theorem stepRunsTheDecodedCommand : Obligations.StepRunsTheDecodedCommand := by
  intro s rest w ho hb
  have hstep : step s = executeWord w { s with hostOps := rest } :=
    step_memWrite hb ho (portAt_register s.part (k := 0) (by omega) rfl)
  exact ⟨fun i hi => hstep.trans (executeWord_of_decode_ok hi _),
    fun e he => hstep.trans (executeWord_of_decode_error he _)⟩

/-! ## Which accesses complete (20_memory.md R62–R64) -/

/-- The map gives a port exactly to the reads it admits: every port can be read. -/
theorem admittedRead_iff {p : Part} {off : Offset} {n : Nat} :
    AdmittedRead p off.toNat n ↔ ∃ port, portAt p off n = .ok port := by
  refine ⟨portAt_of_admittedRead, fun ⟨port, hp⟩ => ?_⟩
  unfold AdmittedRead
  rcases portAt_ok hp with ⟨hn, h4, hlt, -⟩ | ⟨hn, hlo, hhi, -⟩ | ⟨hn, hlo, hhi, -⟩ | ⟨hn, hlo, hhi, -⟩
  · exact .inl ⟨hn, by omega⟩
  · exact .inr ⟨hn, .inl (by omega)⟩
  · exact .inr ⟨hn, .inl (by omega)⟩
  · rw [Part.keybufBytes] at hhi
    exact .inr ⟨hn, .inr (by omega)⟩

/-- The port takes writes: it is not read-only (R64). -/
def Port.writable : Port → Bool
  | .cmd => true
  | .status => false
  | .result => false
  | .size => false
  | .rounds => false
  | .blkin _ => true
  | .blkout _ => false
  | .keybuf _ => true

theorem portWrite_writable {port : Port} (h : port.writable = true) (v : Word) (s : State) :
    ∃ t, portWrite v s port = .next t := by
  cases port with
  | cmd => exact executeWord_next v s
  | blkin i => exact ⟨_, rfl⟩
  | keybuf i => exact ⟨_, rfl⟩
  | status => cases h
  | result => cases h
  | size => cases h
  | rounds => cases h
  | blkout i => cases h

theorem portWrite_readOnly {port : Port} (h : port.writable = false) (v : Word) (s : State) :
    portWrite v s port = .refused .readOnly := by
  cases port with
  | cmd => cases h
  | blkin i => cases h
  | keybuf i => cases h
  | status => rfl
  | result => rfl
  | size => rfl
  | rounds => rfl
  | blkout i => rfl

/-- Of the five registers only CMD takes writes. -/
theorem registerAt_writable {k : Nat} (h : (registerAt k).writable = true) : k = 0 := by
  unfold registerAt at h
  split at h
  · rfl
  all_goals cases h

/-- The map gives a port that takes writes exactly to the writes it admits. -/
theorem admittedWrite_iff {p : Part} {off : Offset} {n : Nat} :
    AdmittedWrite p off.toNat n ↔ ∃ port, portAt p off n = .ok port ∧ port.writable = true := by
  constructor
  · rintro (⟨rfl, hoff⟩ | ⟨rfl, ⟨hlo, hhi⟩ | ⟨hlo, hhi⟩⟩)
    · exact ⟨_, portAt_register p (k := 0) (by omega) hoff, rfl⟩
    · exact ⟨_, portAt_blkin p ⟨off.toNat - 0x020, by omega⟩ (by simp only; omega), rfl⟩
    · exact ⟨_, portAt_keybuf p (i := off.toNat - 0x100) (by rw [Part.keybufBytes]; omega) (by omega), rfl⟩
  · rintro ⟨port, hp, hw⟩
    unfold AdmittedWrite
    rcases portAt_ok hp with ⟨hn, h4, hlt, rfl⟩ | ⟨hn, hlo, hhi, rfl⟩ | ⟨hn, hlo, hhi, rfl⟩ | ⟨hn, hlo, hhi, rfl⟩
    · have hk := registerAt_writable hw
      exact .inl ⟨hn, by omega⟩
    · exact .inr ⟨hn, .inl (by omega)⟩
    · cases hw
    · rw [Part.keybufBytes] at hhi
      exact .inr ⟨hn, .inr (by omega)⟩

/-- Settles O36: an access completes where the map gives it a port, which for a write must not be read-only. -/
theorem accessesAdmittedExactly : Obligations.AccessesAdmittedExactly := by
  intro s rest off n v hb
  refine ⟨fun ho => ?_, fun ho => ?_⟩
  · rw [admittedRead_iff]
    cases hp : portAt s.part off n with
    | error e => exact ⟨nofun, fun _ => ⟨e, step_memRead_error hb ho hp⟩⟩
    | ok port =>
      exact ⟨fun _ => ⟨_, (step_cons ho).trans (runHostOp_memRead hb hp)⟩, fun hno => absurd ⟨port, rfl⟩ hno⟩
  · rw [admittedWrite_iff]
    cases hp : portAt s.part off n with
    | error e => exact ⟨nofun, fun _ => ⟨e, step_memWrite_error hb ho hp⟩⟩
    | ok port =>
      rw [step_memWrite hb ho hp]
      cases hw : port.writable with
      | true => exact ⟨fun _ => portWrite_writable hw v _, fun hno => absurd ⟨port, rfl, hw⟩ hno⟩
      | false =>
        refine ⟨?_, fun _ => ⟨_, portWrite_readOnly hw v _⟩⟩
        rintro ⟨_, ⟨⟩, hw'⟩
        exact absurd hw' (by simp [hw])

/-! ## What a step changes (20_memory.md R66) -/

/-- One read of the WAIT loop changes only the host's own side. -/
theorem waitOnce_frame (s : State) : ∃ ops rs, waitOnce s = { s with hostOps := ops, replies := rs } := by
  unfold waitOnce
  split <;> exact ⟨_, _, rfl⟩

/-- A step that takes neither a write nor a reset changes only the host's own side. -/
theorem step_frame_of_no_write {s t : State} (h : step s = .next t)
    (hw : ∀ off n v rest, s.hostOps ≠ .memWrite off n v :: rest) (hr : ∀ rest, s.hostOps ≠ .reset :: rest) :
    t = { s with hostOps := t.hostOps, replies := t.replies } := by
  rcases step_cases h with ⟨-, rfl⟩ | ⟨op, rest, ho, hrun⟩
  · rfl
  rcases runHostOp_cases hrun with ⟨off, n, port, -, -, rfl⟩ | ⟨off, n, w, rfl, -, -⟩ |
    ⟨off, n, w, i, rfl, -, -⟩ | ⟨off, n, w, i, rfl, -, -⟩ | ⟨-, rfl⟩ | ⟨rfl, -⟩
  · rfl
  · exact absurd ho (hw _ _ _ _)
  · exact absurd ho (hw _ _ _ _)
  · exact absurd ho (hw _ _ _ _)
  · obtain ⟨ops, rs, hwait⟩ := waitOnce_frame { s with hostOps := rest }
    rw [hwait]
  · exact absurd ho (hr _)

/-- The ports a 1-byte access reaches, each byte at its offset (R61, R62). -/
theorem portAt_byte_cases {p : Part} {off : Offset} {port : Port} (h : portAt p off 1 = .ok port) :
    (∃ i : Fin 8, port = .blkin i ∧ off.toNat = 0x020 + i.val) ∨
    (∃ i : Fin 8, port = .blkout i ∧ off.toNat = 0x028 + i.val) ∨
    (∃ i, port = .keybuf i ∧ off.toNat = 0x100 + i) := by
  rcases portAt_ok h with ⟨h4, -⟩ | ⟨-, hlo, hhi, hp⟩ | ⟨-, hlo, hhi, hp⟩ | ⟨-, hlo, -, hp⟩
  · exact absurd h4 (by decide)
  · exact .inl ⟨_, hp, by rw [Fin.val_ofNat]; omega⟩
  · exact .inr (.inl ⟨_, hp, by rw [Fin.val_ofNat]; omega⟩)
  · exact .inr (.inr ⟨_, hp, by omega⟩)

/-- A 1-byte write that completes stores its byte in BLKIN or in KEYBUF. -/
theorem step_byteWrite_cases {s t : State} {off : Offset} {v : Word} {rest : List HostOp}
    (ho : s.hostOps = .memWrite off 1 v :: rest) (h : step s = .next t) :
    (∃ i : Fin 8, off.toNat = 0x020 + i.val ∧ t = (s.withHostOps rest).writeBlkin i (v.setWidth 8)) ∨
    (∃ i, off.toNat = 0x100 + i ∧ t = (s.withHostOps rest).writeKeybuf i (v.setWidth 8)) := by
  rw [step_cons ho] at h
  rcases runHostOp_cases h with ⟨_, _, _, hop, -, -⟩ | ⟨_, _, _, hop, hp, -⟩ | ⟨_, _, _, i, hop, hp, ht⟩ |
    ⟨_, _, _, i, hop, hp, ht⟩ | ⟨hop, -⟩ | ⟨hop, -⟩ <;> cases hop
  · exact absurd (portAt_cmd hp).2 (by decide)
  · rcases portAt_byte_cases hp with ⟨_, hport, hoff⟩ | ⟨_, hport, -⟩ | ⟨_, hport, -⟩ <;> cases hport
    exact .inl ⟨i, hoff, ht⟩
  · rcases portAt_byte_cases hp with ⟨_, hport, -⟩ | ⟨_, hport, -⟩ | ⟨_, hport, hoff⟩ <;> cases hport
    exact .inr ⟨i, hoff, ht⟩

/-- Settles O38: reads and WAIT move the host's own side, and a byte write its byte. -/
theorem onlyCommandWritesHaveSideEffects : Obligations.OnlyCommandWritesHaveSideEffects := by
  refine fun s t hwf h => ⟨step_frame_of_no_write h, fun off v rest ho => ?_⟩
  rcases step_byteWrite_cases ho h with ⟨k, hk, rfl⟩ | ⟨k, hk, rfl⟩
  · refine ⟨fun i hi => ?_, fun i hi => absurd k.isLt (by omega)⟩
    obtain rfl : i = k := Fin.ext (by omega)
    refine ⟨rfl, fun j => ?_⟩
    simp [State.withHostOps, Vector.getElem_set, Fin.ext_iff]
  · refine ⟨fun i hi => absurd i.isLt (by omega), fun i hi => ?_⟩
    obtain rfl : i = k := by omega
    exact ⟨rfl, fun j => Memory.read_write hwf i j _⟩

/-! ## Buffers are read when the command runs (20_memory.md R74) -/

/-- The state with another key buffer. -/
def State.withKeybuf (key : Memory) (s : State) : State := { s with keybuf := key }

/-- Each of ENCRYPT's exits keeps KEYBUF and takes nothing from it. -/
theorem exec_encrypt_withKeybuf (key : Memory) (n : Nat) (s : State) :
    exec (.encrypt n) (s.withKeybuf key) = mapNext (State.withKeybuf key) (exec (.encrypt n) s) := by
  simp only [exec_encrypt, mapNext, apply_ite (State.withKeybuf key)]
  rfl

/-- Each of DECRYPT's exits keeps KEYBUF and takes nothing from it. -/
theorem exec_decrypt_withKeybuf (key : Memory) (n : Nat) (s : State) :
    exec (.decrypt n) (s.withKeybuf key) = mapNext (State.withKeybuf key) (exec (.decrypt n) s) := by
  simp only [exec_decrypt, mapNext, apply_ite (State.withKeybuf key)]
  rfl

/-- Settles O39: a byte write reaches only BLKIN or KEYBUF, and the cipher commands do not look at KEYBUF. -/
theorem buffersAreReadWhenTheCommandRuns : Obligations.BuffersAreReadWhenTheCommandRuns := by
  refine ⟨fun s t off v rest ho h => ?_,
    fun s key n => ⟨exec_encrypt_withKeybuf key n s, exec_decrypt_withKeybuf key n s⟩⟩
  rcases step_byteWrite_cases ho h with ⟨i, -, rfl⟩ | ⟨i, -, rfl⟩ <;> exact ⟨rfl, rfl⟩

end Sys2Proof.Machine

/-! # Encoding: what a word decodes to

A word decodes to an instruction exactly when its three fields are the fields of that instruction's encoding
(30_encoding.md R80–R82, R90); the two round trips, the opcode map and the illegal words follow. -/

namespace Sys2Proof.Machine

open Claims

/-! ## A word is its three fields (R80) -/

section Fields

variable {v w : Word}

/-- No bit of a word lies outside OP, RSV and ARG. -/
theorem word_eq_of_fields (hop : opField v = opField w) (hrsv : rsvField v = rsvField w)
    (harg : argField v = argField w) : v = w := by
  have hop := congrArg BitVec.toNat hop
  have hrsv := congrArg BitVec.toNat hrsv
  have harg := congrArg BitVec.toNat harg
  rw [opField_toNat, opField_toNat] at hop
  rw [rsvField_toNat, rsvField_toNat] at hrsv
  rw [argField_toNat, argField_toNat] at harg
  exact BitVec.eq_of_toNat_eq (by omega)

theorem encode_eq_iff {i : Instr} :
    encode i = w ↔ opField w = i.op ∧ rsvField w = 0 ∧ argField w = i.arg := by
  constructor
  · rintro rfl
    exact ⟨opField_encode i, rsvField_encode i, argField_encode i⟩
  · rintro ⟨hop, hrsv, harg⟩
    exact word_eq_of_fields (by simp [hop]) (by simp [hrsv]) (by simp [harg])

/-- The mask 0xFF of R82 keeps RSV and OP. -/
theorem and_byteMask_eq_iff {op : BitVec 4} :
    w &&& 0xFF = op.setWidth 32 ↔ opField w = op ∧ rsvField w = 0 := by
  have hlt := op.isLt
  have hand : (w &&& 0xFF).toNat = w.toNat % 256 := Nat.and_two_pow_sub_one_eq_mod w.toNat 8
  rw [← BitVec.toNat_inj, hand]
  simp only [← BitVec.toNat_inj, opField_toNat, rsvField_toNat, BitVec.toNat_setWidth, BitVec.ofNat_eq_ofNat,
    BitVec.toNat_ofNat]
  omega

end Fields

/-! ## The operands R81 assembles -/

theorem argOf_eq (w : Word) : argOf w = lengthOperand (argField w) := by
  rw [lengthOperand_eq, argField_toNat, argOf]

theorem signedArg_eq (w : Word) : signedArg w = levelOperand (argField w) := by
  have hlt := (argField w).isLt
  rw [levelOperand_eq, BitVec.toInt_eq_toNat_cond, argField_toNat, signedArg, argOf]
  split <;> split <;> omega

theorem lengthInRange_lengthOperand (arg : BitVec 24) : lengthInRange (lengthOperand arg) = true := by
  have hlt := arg.isLt
  rw [lengthOperand_eq, lengthInRange, decide_eq_true_eq]
  omega

theorem levelInRange_levelOperand (arg : BitVec 24) : levelInRange (levelOperand arg) = true := by
  have hlo := arg.le_toInt
  have hhi := arg.toInt_lt
  rw [levelOperand_eq, levelInRange, decide_eq_true_eq]
  omega

theorem ofNat_lengthOperand (arg : BitVec 24) : BitVec.ofNat 24 (lengthOperand arg) = arg := by
  rw [lengthOperand_eq, BitVec.ofNat_toNat, BitVec.setWidth_eq]

theorem ofInt_levelOperand (arg : BitVec 24) : BitVec.ofInt 24 (levelOperand arg) = arg := by
  rw [levelOperand_eq, BitVec.ofInt_toInt]

/-! ## The two round trips (R87, R90) -/

/-- Settles O1: the encoded word carries the command's OP, and its ARG gives back every operand in range. -/
theorem decodeOfEncodeIsTheInstruction : Obligations.DecodeOfEncodeIsTheInstruction := by
  intro i hi
  cases i with
  | construct level => simp [decode, Instr.op, Instr.arg, levelOperand_ofInt hi]
  | setkey n => simp [decode, Instr.op, Instr.arg, lengthOperand_ofNat hi]
  | clear => simp [decode, noOperand, Instr.op, Instr.arg]
  | encrypt n => simp [decode, Instr.op, Instr.arg, lengthOperand_ofNat hi]
  | decrypt n => simp [decode, Instr.op, Instr.arg, lengthOperand_ofNat hi]
  | keysize => simp [decode, noOperand, Instr.op, Instr.arg]
  | blocksize => simp [decode, noOperand, Instr.op, Instr.arg]

/-- Settles O2: each word the decoder accepts has the fields of its instruction's encoding. -/
theorem encodeOfDecodeIsTheWord : Obligations.EncodeOfDecodeIsTheWord := by
  intro w i h
  rw [encode_eq_iff]
  rcases decode_cases w with ⟨-, hd⟩ | ⟨hrsv, ⟨hop, hd⟩ | ⟨hop, hd⟩ | ⟨hop, harg, hd⟩ | ⟨hop, hd⟩ | ⟨hop, hd⟩ |
    ⟨hop, harg, hd⟩ | ⟨hop, harg, hd⟩ | ⟨-, -, hd⟩ | ⟨-, hd⟩⟩ <;> cases h.symm.trans hd
  · exact ⟨levelInRange_levelOperand _, hop, hrsv, (ofInt_levelOperand _).symm⟩
  · exact ⟨lengthInRange_lengthOperand _, hop, hrsv, (ofNat_lengthOperand _).symm⟩
  · exact ⟨rfl, hop, hrsv, harg⟩
  · exact ⟨lengthInRange_lengthOperand _, hop, hrsv, (ofNat_lengthOperand _).symm⟩
  · exact ⟨lengthInRange_lengthOperand _, hop, hrsv, (ofNat_lengthOperand _).symm⟩
  · exact ⟨rfl, hop, hrsv, harg⟩
  · exact ⟨rfl, hop, hrsv, harg⟩

/-- The decoder inverts the encoder, and answers nothing else. -/
theorem decode_eq_ok_iff {w : Word} {i : Instr} : decode w = .ok i ↔ i.wellFormed = true ∧ encode i = w :=
  ⟨encodeOfDecodeIsTheWord w i, fun ⟨hi, hw⟩ => hw ▸ decodeOfEncodeIsTheInstruction i hi⟩

/-- Settles O5: the words decode as listed, and so they are the encodings of what they decode to. -/
theorem workedEncodingsDecode : Obligations.WorkedEncodingsDecode := by
  have hdecode : ∀ x ∈ encodingExamples, decode x.1 = .ok x.2 := by decide
  exact ⟨fun x hx => ⟨hdecode x hx, (encodeOfDecodeIsTheWord _ _ (hdecode x hx)).2⟩, by decide, by decide, by decide⟩

/-- Settles O7: the expansion is one command write of the encoded word, which decodes to the command. -/
theorem assembledCommandRunsAsWritten : Obligations.AssembledCommandRunsAsWritten := by
  refine fun i s hb => ⟨fun hi => ⟨[writeCmd (encode i)], by rw [assemble, if_pos hi], ?_⟩,
    fun hi => by rw [assemble, hi]; rfl⟩
  exact (stepRunsTheDecodedCommand { s with hostOps := writeCmd (encode i) :: s.hostOps } _ _ rfl hb).1 i
    (decodeOfEncodeIsTheInstruction i hi)

/-! ## Illegal words (R83–R86) -/

/-- R83, R84 and R85 over the decoder's fields. -/
theorem illegalWord_iff {w : Word} : IllegalWord w ↔
    (opField w = 0 ∨ 8 ≤ (opField w).toNat) ∨ rsvField w ≠ 0 ∨
      ((opField w = 3 ∨ opField w = 6 ∨ opField w = 7) ∧ argField w ≠ 0) := by
  simp only [IllegalWord, opOf, rsvOf, argOf, ← opField_toNat, ← rsvField_toNat, ← argField_toNat, ne_eq,
    ← BitVec.toNat_inj]
  rfl

theorem not_illegalWord_encode (i : Instr) : ¬ IllegalWord (encode i) := by
  rw [illegalWord_iff, opField_encode, rsvField_encode, argField_encode]
  cases i <;> simp [Instr.op, Instr.arg]

theorem illegalWord_of_decode_error {w : Word} {e : Illegal} (h : decode w = .error e) : IllegalWord w := by
  rw [illegalWord_iff]
  rcases decode_cases w with ⟨hrsv, hd⟩ | ⟨-, ⟨-, hd⟩ | ⟨-, hd⟩ | ⟨-, -, hd⟩ | ⟨-, hd⟩ | ⟨-, hd⟩ | ⟨-, -, hd⟩ |
    ⟨-, -, hd⟩ | ⟨hop, harg, hd⟩ | ⟨hop, hd⟩⟩ <;> cases h.symm.trans hd
  · exact .inr (.inl hrsv)
  · exact .inr (.inr ⟨hop, harg⟩)
  · exact .inl hop

/-- Settles O3: the decoder accepts encodings alone, which are not illegal, and what it refuses fails with code 4. -/
theorem illegalWordsFailAndAllOthersAreCommands : Obligations.IllegalWordsFailAndAllOthersAreCommands := by
  intro w s
  cases h : decode w with
  | ok i =>
    obtain ⟨-, rfl⟩ := decode_eq_ok_iff.1 h
    exact ⟨fun hill => absurd hill (not_illegalWord_encode i), fun _ => ⟨i, rfl⟩⟩
  | error e =>
    exact ⟨fun _ => executeWord_of_decode_error h s, fun hno => absurd (illegalWord_of_decode_error h) hno⟩

/-! ## The opcode map (R82) -/

/-- A row with an operand: its byte selects the command when the operand is the one ARG holds. -/
theorem and_byteMask_eq_iff_decode {w : Word} {i : Instr} (hi : i.wellFormed = true) (harg : i.arg = argField w) :
    w &&& 0xFF = i.op.setWidth 32 ↔ decode w = .ok i := by
  rw [and_byteMask_eq_iff, decode_eq_ok_iff, encode_eq_iff]
  simp [hi, harg]

/-- A row without operand matches one word. -/
theorem and_wordMask_eq_iff_decode {w : Word} {i : Instr} (hi : i.wellFormed = true) :
    w &&& 0xFFFFFFFF = encode i ↔ decode w = .ok i := by
  rw [decode_eq_ok_iff, show w &&& 0xFFFFFFFF = w from BitVec.and_allOnes]
  simp [hi, eq_comm]

/-- The first sentence of R82, row by row. -/
theorem opcodeRow_selects : ∀ row ∈ opcodeRows, ∀ w : Word, w &&& row.2.1 = row.1 ↔ decode w = .ok (row.2.2 w) := by
  simp only [opcodeRows, List.forall_mem_cons, List.not_mem_nil, false_implies, implies_true, and_true, argOf_eq,
    signedArg_eq]
  exact ⟨fun _ => and_byteMask_eq_iff_decode (i := .construct _) (levelInRange_levelOperand _) (ofInt_levelOperand _),
    fun _ => and_byteMask_eq_iff_decode (i := .setkey _) (lengthInRange_lengthOperand _) (ofNat_lengthOperand _),
    fun _ => and_wordMask_eq_iff_decode (i := .clear) rfl,
    fun _ => and_byteMask_eq_iff_decode (i := .encrypt _) (lengthInRange_lengthOperand _) (ofNat_lengthOperand _),
    fun _ => and_byteMask_eq_iff_decode (i := .decrypt _) (lengthInRange_lengthOperand _) (ofNat_lengthOperand _),
    fun _ => and_wordMask_eq_iff_decode (i := .keysize) rfl,
    fun _ => and_wordMask_eq_iff_decode (i := .blocksize) rfl⟩

/-- Every row fixes the low byte of its words, at its match value. -/
theorem and_byteMask_of_row {row : Word × Word × (Word → Instr)} (hrow : row ∈ opcodeRows) {w : Word}
    (h : w &&& row.2.1 = row.1) : w &&& 0xFF = row.1 := by
  have hbyte : ∀ r ∈ opcodeRows, r.2.1 &&& 0xFF = 0xFF ∧ r.1 &&& 0xFF = r.1 := by decide
  obtain ⟨hmask, hmatch⟩ := hbyte row hrow
  rw [← hmask, ← BitVec.and_assoc, h, hmatch]

/-- The second sentence of R82: the rows fix different low bytes. -/
theorem opcodeRows_disjoint :
    opcodeRows.Pairwise (fun a b => ∀ w : Word, ¬ (w &&& a.2.1 = a.1 ∧ w &&& b.2.1 = b.1)) := by
  have hne : opcodeRows.Pairwise (fun a b => a.1 ≠ b.1) := by decide
  exact hne.imp_of_mem fun ha hb hab w ⟨hwa, hwb⟩ =>
    hab ((and_byteMask_of_row ha hwa).symm.trans (and_byteMask_of_row hb hwb))

/-- Every command has its row. -/
theorem exists_row_of_instr (i : Instr) : ∃ row ∈ opcodeRows, encode i &&& row.2.1 = row.1 := by
  have hbyte : encode i &&& 0xFF = i.op.setWidth 32 := and_byteMask_eq_iff.2 ⟨opField_encode i, rsvField_encode i⟩
  cases i with
  | construct level => exact ⟨opcodeRows[0], List.getElem_mem _, hbyte⟩
  | setkey n => exact ⟨opcodeRows[1], List.getElem_mem _, hbyte⟩
  | clear => exact ⟨opcodeRows[2], List.getElem_mem _, rfl⟩
  | encrypt n => exact ⟨opcodeRows[3], List.getElem_mem _, hbyte⟩
  | decrypt n => exact ⟨opcodeRows[4], List.getElem_mem _, hbyte⟩
  | keysize => exact ⟨opcodeRows[5], List.getElem_mem _, rfl⟩
  | blocksize => exact ⟨opcodeRows[6], List.getElem_mem _, rfl⟩

/-- Settles O4: row by row, the rows apart, and a word outside every row decodes to nothing. -/
theorem opcodeMapSelectsByMatchAndMask : Obligations.OpcodeMapSelectsByMatchAndMask := by
  refine ⟨opcodeRow_selects, opcodeRows_disjoint, fun w => ?_⟩
  cases h : decode w with
  | ok i =>
    obtain ⟨-, rfl⟩ := decode_eq_ok_iff.1 h
    obtain ⟨row, hrow, hmatch⟩ := exists_row_of_instr i
    exact ⟨fun hno => absurd hmatch (hno row hrow), nofun⟩
  | error e =>
    refine ⟨fun _ => ⟨e, rfl⟩, fun _ row hrow hmatch => ?_⟩
    cases h.symm.trans ((opcodeRow_selects row hrow w).1 hmatch)

end Sys2Proof.Machine

/-! # CONSTRUCT (40_instance.md R101–R105) and the zero schedule (43_key_schedule.md R181)

A level up to LEVEL_MAX gives one geometry, which CONSTRUCT writes over the old instance. What the cipher then reads
is that geometry and a KS of zeros, and SETKEY followed by CLEAR leaves both as CONSTRUCT did. -/

namespace Sys2Proof.Machine

open Claims

/-! ## The instance a level selects -/

/-- SIZE, ROUNDS and THIN of the instance for a level up to LEVEL_MAX (R101, R102). -/
def instanceOf (level : Int) : Geometry :=
  if level < 1 then ⟨1, 8, true⟩ else ⟨level.toNat, 16 * level.toNat, false⟩

theorem instanceOf_size (level : Int) : (instanceOf level).size = if level < 1 then 1 else level.toNat := by
  unfold instanceOf
  split <;> rfl

theorem instanceOf_rounds (level : Int) : (instanceOf level).rounds = if level < 1 then 8 else 16 * level.toNat := by
  unfold instanceOf
  split <;> rfl

theorem instanceOf_thin (level : Int) : (instanceOf level).thin = decide (level < 1) := by
  unfold instanceOf
  split <;> simp [*]

variable {level : Int} {s : State}

theorem exec_construct_of_le (h : level ≤ s.part.levelMax) :
    exec (.construct level) s = .next (s.configure (instanceOf level)).zeroSchedule.finish := by
  rw [exec_construct]
  by_cases h1 : level < 1
  · rw [if_pos h1, instanceOf, if_pos h1]
  · rw [if_neg h1, if_neg (by omega), instanceOf, if_neg h1]

/-- A level above LEVEL_MAX fails with code 5 (R103), which leaves the instance as it was (R105). -/
theorem exec_construct_of_gt (h : (s.part.levelMax : Int) < level) :
    exec (.construct level) s = .next (failedWith 5 s) := by
  rw [exec_construct, if_neg (by omega), if_pos h]
  rfl

/-- On a part within R6 the instance's SIZE fits its register. -/
theorem toNat_instanceOf_size (hp : s.part.wf) (h : level ≤ s.part.levelMax) :
    (BitVec.ofNat 32 (instanceOf level).size).toNat = if level < 1 then 1 else level.toNat := by
  obtain ⟨-, hmax⟩ := hp
  rw [instanceOf_size, BitVec.toNat_ofNat, Nat.mod_eq_of_lt]
  split <;> omega

/-- On a part within R6 the instance's ROUNDS fits its register. -/
theorem toNat_instanceOf_rounds (hp : s.part.wf) (h : level ≤ s.part.levelMax) :
    (BitVec.ofNat 32 (instanceOf level).rounds).toNat = if level < 1 then 8 else 16 * level.toNat := by
  obtain ⟨-, hmax⟩ := hp
  rw [instanceOf_rounds, BitVec.toNat_ofNat, Nat.mod_eq_of_lt]
  split <;> omega

/-! ## What CONSTRUCT ends in -/

/-- Settles O12: a level below 1 is within every LEVEL_MAX, and its instance is the thin one. -/
theorem constructBelowOneIsThin : Obligations.ConstructBelowOneIsThin := by
  intro level s h
  have hthin : instanceOf level = ⟨1, 8, true⟩ := if_pos h
  refine ⟨_, exec_construct_of_le (by omega), ?_⟩
  rw [hthin]
  exact ⟨rfl, rfl, rfl, rfl, rfl, fun _ => rfl, rfl⟩

/-- Settles O13: the level's instance has SIZE = level and ROUNDS = 16*level, and neither register wraps. -/
theorem constructSelectsLevel : Obligations.ConstructSelectsLevel := by
  intro level s hp h1 h
  have hlevel : ¬ level < 1 := by omega
  have hthin : (instanceOf level).thin = false := by simp [instanceOf_thin, h1]
  refine ⟨_, exec_construct_of_le h, ?_, ?_, hthin, fun _ => rfl, ?_⟩
  · simp only [State.finish_size, State.zeroSchedule_size, State.configure_size]
    rw [toNat_instanceOf_size hp h, if_neg hlevel]
    omega
  · simp only [State.finish_rounds, State.zeroSchedule_rounds, State.configure_rounds]
    rw [toNat_instanceOf_rounds hp h, if_neg hlevel]
    omega
  · rw [← hthin]
    rfl

/-- Settles O14: a CONSTRUCT that succeeds overwrites every field that holds the old instance, so both runs end in one
state. -/
theorem constructReplacesTheInstance : Obligations.ConstructReplacesTheInstance := by
  intro level s ks size rounds cfg thin hp
  exact ⟨fun h => ⟨_, exec_construct_of_le h, exec_construct_of_le h, toNat_instanceOf_size hp h,
    toNat_instanceOf_rounds hp h, instanceOf_thin level, rfl, fun _ => rfl⟩, exec_construct_of_gt⟩

/-! ## SETKEY and CLEAR give the fresh instance's schedule back -/

theorem exec_setkey_ready (hc : s.status.cfg = true) :
    exec (.setkey (8 * s.size.toNat)) s = .next s.expandKey.finish := by
  rw [exec_setkey, if_neg (by simp [hc]), if_pos rfl]

theorem exec_clear_ready (hc : s.status.cfg = true) : exec .clear s = .next s.zeroSchedule.finish := by
  rw [exec_clear, if_neg (by simp [hc])]

/-- The cipher reads KS and ROUNDS of an instance and nothing else of it: engines that agree in these encrypt and
decrypt a block alike. -/
theorem exec_cipher_blkout_congr {s u : State} (hs : s.status.cfg = true) (hu : u.status.cfg = true)
    (hks : s.ks = u.ks) (hrounds : s.rounds = u.rounds) (block : Block) :
    (∃ a b, exec (.encrypt 8) { s with blkin := block } = .next a ∧
      exec (.encrypt 8) { u with blkin := block } = .next b ∧ a.blkout = b.blkout) ∧
    (∃ a b, exec (.decrypt 8) { s with blkin := block } = .next a ∧
      exec (.decrypt 8) { u with blkin := block } = .next b ∧ a.blkout = b.blkout) :=
  ⟨⟨_, _, exec_encrypt_ready hs, exec_encrypt_ready hu, by simp [hks, hrounds]⟩,
    ⟨_, _, exec_decrypt_ready hs, exec_decrypt_ready hu, by simp [hks, hrounds]⟩⟩

/-- Settles O29: SETKEY keeps CFG and ROUNDS and CLEAR zeroes KS, so both engines hold what the cipher reads alike. -/
theorem zeroScheduleDeterminism : Obligations.ZeroScheduleDeterminism := by
  intro level s u plain hpart h
  have hcfg {s1 : State} (hs1 : s1.status.cfg = true) : s1.expandKey.finish.status.cfg = true := by simpa using hs1
  refine ⟨_, _, _, _, exec_construct_of_le h, exec_setkey_ready rfl, exec_clear_ready (hcfg rfl),
    exec_construct_of_le (hpart ▸ h), rfl, rfl, exec_cipher_blkout_congr ?keyed ?fresh ?zeroSchedule ?rounds plain⟩
  case keyed => exact hcfg rfl
  case fresh => rfl
  case zeroSchedule => rfl
  case rounds => simp

end Sys2Proof.Machine

/-! # The arithmetic unit computes in GF(2)[x] modulo m(x) (41_gf_arith.md R122, R126, R128)

A byte stands for the class of its polynomial modulo m(x). Different bytes stand for different classes, and GF_MULT is
the product of the classes: so the laws of a commutative ring are laws of GF_MULT, and GF_EXP7 is the seventh power. -/

namespace Sys2Proof.Machine

open Claims Polynomial

/-! ## The polynomial of a number's bits -/

/-- The polynomial over GF(2) whose coefficients are the bits of a number. -/
noncomputable def bitPoly (n : ℕ) : (ZMod 2)[X] := ∑ i ∈ Finset.range n, if n.testBit i then X ^ i else 0

theorem coeff_bitPoly (n i : ℕ) : (bitPoly n).coeff i = if n.testBit i then 1 else 0 := by
  have hterm : ∀ j, (if n.testBit j then X ^ j else 0 : (ZMod 2)[X]).coeff i =
      if i = j then (if n.testBit j then 1 else 0) else 0 := by
    intro j
    split <;> simp [coeff_X_pow]
  simp only [bitPoly, finsetSum_coeff, hterm, Finset.sum_ite_eq, Finset.mem_range]
  by_cases hi : i < n
  · rw [if_pos hi]
  · rw [if_neg hi, Nat.testBit_lt_two_pow (by have := i.lt_two_pow_self; omega)]
    rfl

theorem polyOf_iff {n : ℕ} {v : BitVec n} {P : (ZMod 2)[X]} : PolyOf v P ↔ P = bitPoly v.toNat := by
  simp only [PolyOf, Polynomial.ext_iff, coeff_bitPoly, BitVec.getLsbD]

theorem coeff_bitPoly_eq_one_iff {n i : ℕ} : (bitPoly n).coeff i = 1 ↔ n.testBit i = true := by
  simp [coeff_bitPoly]

theorem bitPoly_injective : Function.Injective bitPoly := by
  intro a b h
  refine Nat.eq_of_testBit_eq fun i => Bool.eq_iff_iff.2 ?_
  rw [← coeff_bitPoly_eq_one_iff, h, coeff_bitPoly_eq_one_iff]

@[simp] theorem bitPoly_zero : bitPoly 0 = 0 := rfl

@[simp] theorem bitPoly_one : bitPoly 1 = 1 := by simp [bitPoly]

/-- XOR is addition over GF(2). -/
@[simp] theorem bitPoly_xor (a b : ℕ) : bitPoly (a ^^^ b) = bitPoly a + bitPoly b := by
  ext i
  rw [coeff_add, coeff_bitPoly, coeff_bitPoly, coeff_bitPoly, Nat.testBit_xor]
  cases a.testBit i <;> cases b.testBit i <;> decide

@[simp] theorem bitPoly_two_mul (n : ℕ) : bitPoly (2 * n) = X * bitPoly n := by
  ext i
  cases i with
  | zero => simp [coeff_bitPoly]
  | succ i => rw [coeff_X_mul, coeff_bitPoly, coeff_bitPoly, Nat.testBit_succ, Nat.mul_div_cancel_left n (by omega)]

@[simp] theorem bitPoly_two : bitPoly 2 = X := by simpa using bitPoly_two_mul 1

/-- The low bit is the constant term, and the other bits are a multiple of X. -/
theorem bitPoly_eq_low_add (n : ℕ) : bitPoly n = (if n % 2 = 1 then 1 else 0) + X * bitPoly (n / 2) := by
  ext i
  cases i with
  | zero => by_cases hlow : n % 2 = 1 <;> simp [coeff_bitPoly, hlow]
  | succ i =>
    have hconst : (if n % 2 = 1 then 1 else 0 : (ZMod 2)[X]).coeff (i + 1) = 0 := by
      split <;> simp [coeff_one]
    rw [coeff_add, hconst, zero_add, coeff_X_mul, coeff_bitPoly, coeff_bitPoly, Nat.testBit_succ]

theorem degree_bitPoly_lt {n k : ℕ} (h : n < 2 ^ k) : (bitPoly n).degree < k := by
  rw [degree_lt_iff_coeff_zero]
  intro i hi
  rw [coeff_bitPoly, Nat.testBit_lt_two_pow (h.trans_le (Nat.pow_le_pow_right (by omega) hi))]
  rfl

/-- A modulus in 256 … 511 has x^8 as its leading term. -/
theorem coeff_bitPoly_modulus {m : BitVec 9} (hm : 256 ≤ m.toNat) : (bitPoly m.toNat).coeff 8 = 1 := by
  rw [coeff_bitPoly_eq_one_iff, Nat.testBit_eq_decide_div_mod_eq, decide_eq_true_eq]
  omega

theorem monic_bitPoly_modulus {m : BitVec 9} (hm : 256 ≤ m.toNat) : (bitPoly m.toNat).Monic :=
  monic_of_degree_le 8 (Order.lt_succ_iff.1 (degree_bitPoly_lt m.isLt)) (coeff_bitPoly_modulus hm)

theorem degree_byte_lt_modulus {m : BitVec 9} (hm : 256 ≤ m.toNat) (v : Byte) :
    (bitPoly v.toNat).degree < (bitPoly m.toNat).degree := by
  refine (degree_bitPoly_lt v.isLt).trans_le (le_degree_of_ne_zero ?_)
  rw [coeff_bitPoly_modulus hm]
  exact one_ne_zero

/-! ## A byte as an element of GF(2)[x] modulo m(x) -/

/-- The class of a byte's polynomial modulo m(x). -/
noncomputable def gfElem (m : BitVec 9) (v : Byte) : AdjoinRoot (bitPoly m.toNat) :=
  AdjoinRoot.mk _ (bitPoly v.toNat)

@[simp] theorem gfElem_zero (m : BitVec 9) : gfElem m 0#8 = 0 := map_zero _

@[simp] theorem gfElem_one (m : BitVec 9) : gfElem m 1#8 = 1 := by simp [gfElem]

@[simp] theorem gfElem_two (m : BitVec 9) : gfElem m 2#8 = AdjoinRoot.root _ := by simp [gfElem]

@[simp] theorem gfElem_xor (m : BitVec 9) (a b : Byte) : gfElem m (a ^^^ b) = gfElem m a + gfElem m b := by
  simp [gfElem]

section Modulus

variable {m : BitVec 9} (hm : 256 ≤ m.toNat)
include hm

/-- A byte's polynomial is the remainder of every polynomial of its class. -/
theorem bitPoly_eq_modByMonic {v : Byte} {Q : (ZMod 2)[X]} (h : gfElem m v = AdjoinRoot.mk _ Q) :
    bitPoly v.toNat = Q %ₘ bitPoly m.toNat := by
  rw [← modByMonic_eq_of_dvd_sub (monic_bitPoly_modulus hm) (AdjoinRoot.mk_eq_mk.1 h),
    (modByMonic_eq_self_iff (monic_bitPoly_modulus hm)).2 (degree_byte_lt_modulus hm v)]

theorem gfElem_injective : Function.Injective (gfElem m) := by
  intro a b h
  have hpoly : bitPoly a.toNat = bitPoly b.toNat :=
    (bitPoly_eq_modByMonic hm h).trans (bitPoly_eq_modByMonic hm rfl).symm
  exact BitVec.eq_of_toNat_eq (bitPoly_injective hpoly)

end Modulus

/-! ## GF_MULT and GF_EXP7 on the classes -/

/-- One step of the multiplicand is a product with the class of x: folding back subtracts m(x). -/
theorem mk_bitPoly_natTimesX (m x : ℕ) :
    AdjoinRoot.mk (bitPoly m) (bitPoly (natTimesX m x)) = AdjoinRoot.mk _ X * AdjoinRoot.mk _ (bitPoly x) := by
  unfold natTimesX
  split <;> simp

/-- The loop adds the product of the multiplicand and the multiplier's bits to the accumulator. -/
theorem mk_bitPoly_natMultLoop (m fuel : ℕ) (res x y : ℕ) (hy : y < 2 ^ fuel) :
    AdjoinRoot.mk (bitPoly m) (bitPoly (natMultLoop m fuel res x y)) =
      AdjoinRoot.mk _ (bitPoly res) + AdjoinRoot.mk _ (bitPoly x) * AdjoinRoot.mk _ (bitPoly y) := by
  induction fuel generalizing res x y with
  | zero =>
    obtain rfl : y = 0 := by omega
    simp [natMultLoop]
  | succ fuel ih =>
    rw [natMultLoop, ih _ _ _ (by omega), mk_bitPoly_natTimesX, bitPoly_eq_low_add y]
    by_cases hlow : y % 2 = 1
    · simp only [if_pos hlow, bitPoly_xor, map_add, map_mul, map_one]
      ring
    · simp only [if_neg hlow, map_add, map_mul, map_zero]
      ring

section Modulus

variable {m : BitVec 9} (hm : 256 ≤ m.toNat)
include hm

theorem gfElem_gfMult (a b : Byte) : gfElem m (gfMult a b m) = gfElem m a * gfElem m b := by
  rw [gfElem, gfMult_toNat a b m hm, natMult, mk_bitPoly_natMultLoop _ _ _ _ _ b.isLt, bitPoly_zero, map_zero, zero_add]
  rfl

theorem gfElem_gfExp7 (b : Byte) : gfElem m (gfExp7 b m) = gfElem m b ^ 7 := by
  unfold gfExp7
  by_cases hb : b = 0
  · simp [hb]
  · simp only [if_neg hb, gfElem_gfMult hm]
    ring

end Modulus

/-- Settles O15: the classes form a commutative ring with GF_MULT as product and XOR as sum. -/
theorem gfMultIsPolynomialProduct : Obligations.GfMultIsPolynomialProduct := by
  intro a b c m hm
  have hmul := gfElem_gfMult hm
  have heq {u v : Byte} (h : gfElem m u = gfElem m v) : u = v := gfElem_injective hm h
  refine ⟨?product, heq ?comm, heq ?assoc, heq ?distrib, heq ?zeroLeft, heq ?zeroRight, heq ?oneLeft⟩
  case product =>
    intro A B M P hA hB hM hP
    rw [polyOf_iff] at hA hB hM hP
    subst hA hB hM hP
    exact bitPoly_eq_modByMonic hm ((hmul a b).trans (map_mul _ _ _).symm)
  case comm => rw [hmul, hmul, mul_comm]
  case assoc => rw [hmul, hmul, hmul, hmul, mul_assoc]
  case distrib => rw [hmul, gfElem_xor, gfElem_xor, hmul, hmul, mul_add]
  case zeroLeft => simp [hmul]
  case zeroRight => simp [hmul]
  case oneLeft => simp [hmul]

/-- Settles O16: GF_EXP7 is the seventh power of the class, and its byte the remainder. -/
theorem gfExp7IsSeventhPower : Obligations.GfExp7IsSeventhPower := by
  intro b m hm B M P hB hM hP
  rw [polyOf_iff] at hB hM hP
  subst hB hM hP
  exact bitPoly_eq_modByMonic hm ((gfElem_gfExp7 hm b).trans (map_pow _ _ _).symm)

/-! ## The S-maps

Where x^256 = x modulo m(x), every class is its own 256th power, by Frobenius; then the 73rd power undoes the seventh,
as 7 * 73 = 511. Each modulus of the table passes this one test, so its irreducibility (R126) is not needed. -/

/-- The 256th power, as GF_MULT computes it: eight squarings. -/
def gfPow256 (m : BitVec 9) (v : Byte) : Byte := (fun u => gfMult u u m)^[8] v

theorem gfElem_gfPow256 {m : BitVec 9} (hm : 256 ≤ m.toNat) (v : Byte) :
    gfElem m (gfPow256 m v) = gfElem m v ^ 256 := by
  simp only [gfPow256, Function.iterate_succ_apply, Function.iterate_zero_apply, gfElem_gfMult hm]
  ring

/-- The classes are generated by that of x, and the 256th power is a ring homomorphism. -/
theorem pow_256_eq_self {f : (ZMod 2)[X]} (hroot : AdjoinRoot.root f ^ 256 = AdjoinRoot.root f) (z : AdjoinRoot f) :
    z ^ 256 = z := by
  have hpow : ∀ y, (FiniteField.frobeniusAlgHom (ZMod 2) (AdjoinRoot f) ^ 8) y = y ^ 256 := by
    intro y
    rw [AlgHom.coe_pow, FiniteField.coe_frobeniusAlgHom, pow_iterate]
    simp
  have hid : FiniteField.frobeniusAlgHom (ZMod 2) (AdjoinRoot f) ^ 8 = 1 :=
    AdjoinRoot.algHom_ext ((hpow _).trans hroot)
  rw [← hpow, hid, AlgHom.one_apply]

theorem gfExp7_injective {m : BitVec 9} (hm : 256 ≤ m.toNat) (htest : gfPow256 m 2#8 = 2#8) :
    Function.Injective (gfExp7 · m) := by
  have hroot : AdjoinRoot.root (bitPoly m.toNat) ^ 256 = AdjoinRoot.root _ := by
    rw [← gfElem_two, ← gfElem_gfPow256 hm, htest]
  have hundo : ∀ z : AdjoinRoot (bitPoly m.toNat), (z ^ 7) ^ 73 = z := by
    intro z
    calc (z ^ 7) ^ 73 = z ^ 256 * z ^ 255 := by ring
      _ = z ^ 256 := by rw [pow_256_eq_self hroot, ← pow_succ', pow_256_eq_self hroot]
      _ = z := pow_256_eq_self hroot z
  intro a b h
  apply gfElem_injective hm
  rw [← hundo (gfElem m a), ← hundo (gfElem m b), ← gfElem_gfExp7 hm, ← gfElem_gfExp7 hm]
  exact congrArg (gfElem m · ^ 73) h

theorem gfPow256_smod (p row : Fin 4) : gfPow256 (smod p row) 2#8 = 2#8 := by
  revert p row
  decide

/-- Settles O17: XOR with a constant and the seventh power are injective on the bytes, which are finitely many. -/
theorem sMapsAreBijections : Obligations.SMapsAreBijections := by
  refine fun p row => ⟨fun _ => rfl, Finite.injective_iff_bijective.1 fun a b h => ?_⟩
  have hxor : a ^^^ sxor p row = b ^^^ sxor p row := gfExp7_injective (smod_ge p row) (gfPow256_smod p row) h
  exact (BitVec.xor_left_inj _).1 hxor

end Sys2Proof.Machine

/-! # The SP tables (42_spbox.md R143–R149), and F as four lookups in them (44_round_function.md R195, R196)

PERM32 moves every bit to a place of its own, so it is injective and carries the laws of bitwise operations over. An
entry of plane p is the value of an S-map in byte 3 - p, scattered: entries of different planes have no bit in common,
and within a plane an entry is as good as the byte it stands for. -/

namespace Sys2Proof.Machine

open Claims

/-! ## PERM32, bit by bit (R143, R144) -/

theorem pbox_eq_shiftLeft_dst (k : Fin 32) : pbox k = 1#32 <<< dstTable[k].val := by
  revert k
  decide

theorem dst_bijective : Function.Bijective (fun k : Fin 32 => dstTable[k]) :=
  Finite.injective_iff_bijective.1 (by decide)

theorem getLsbD_pbox_dst (j k : Fin 32) : (pbox j).getLsbD dstTable[k].val = decide (j = k) := by
  revert j k
  decide

/-- A bit of the scatter loop over any list of source bits. -/
theorem getLsbD_scatter (x : Word) (b : Nat) (ks : List (Fin 32)) (res : Word) :
    (ks.foldl (fun res k => if x.getLsbD k.val then res ||| pbox k else res) res).getLsbD b =
      (res.getLsbD b || ks.any fun k => x.getLsbD k.val && (pbox k).getLsbD b) := by
  induction ks generalizing res with
  | nil => simp
  | cons k ks ih =>
    rw [List.foldl_cons, ih, List.any_cons]
    cases x.getLsbD k.val <;> simp [Bool.or_assoc]

/-- R144: PERM32 moves bit k to dst(k). -/
@[simp] theorem getLsbD_perm32_dst (x : Word) (k : Fin 32) :
    (perm32 x).getLsbD dstTable[k].val = x.getLsbD k.val := by
  rw [perm32, getLsbD_scatter, Bool.eq_iff_iff]
  simp only [getLsbD_pbox_dst]
  simp

/-- The destinations reach every bit, so they tell words apart. -/
theorem eq_of_getLsbD_dst {x y : Word}
    (h : ∀ k : Fin 32, x.getLsbD dstTable[k].val = y.getLsbD dstTable[k].val) : x = y := by
  refine BitVec.eq_of_getLsbD_eq fun b hb => ?_
  obtain ⟨k, hk⟩ := dst_bijective.2 ⟨b, hb⟩
  simpa only [hk] using h k

theorem perm32_injective : Function.Injective perm32 := by
  intro x y h
  refine BitVec.eq_of_getLsbD_eq fun b hb => ?_
  rw [← getLsbD_perm32_dst x ⟨b, hb⟩, h, getLsbD_perm32_dst]

theorem perm32_or (x y : Word) : perm32 (x ||| y) = perm32 x ||| perm32 y :=
  eq_of_getLsbD_dst fun k => by simp only [BitVec.getLsbD_or, getLsbD_perm32_dst]

theorem perm32_and (x y : Word) : perm32 (x &&& y) = perm32 x &&& perm32 y :=
  eq_of_getLsbD_dst fun k => by simp only [BitVec.getLsbD_and, getLsbD_perm32_dst]

theorem perm32_xor (x y : Word) : perm32 (x ^^^ y) = perm32 x ^^^ perm32 y :=
  eq_of_getLsbD_dst fun k => by simp only [BitVec.getLsbD_xor, getLsbD_perm32_dst]

/-- Settles O18: each law of PERM32 holds at the destination of every source bit. -/
theorem perm32MovesEachBit : Obligations.Perm32MovesEachBit :=
  ⟨pbox_eq_shiftLeft_dst, dst_bijective, getLsbD_perm32_dst, by decide, by decide,
    fun x y => ⟨perm32_or x y, perm32_and x y, perm32_xor x y⟩⟩

/-! ## The planes are disjoint (R148) -/

theorem planeMask_eq_perm32 (p : Fin 4) : planeMask[p] = perm32 (0xFF#32 <<< (24 - 8 * p.val)) := by
  revert p
  decide

theorem planeMask_disjoint {p q : Fin 4} (h : p ≠ q) : planeMask[p] &&& planeMask[q] = 0#32 := by
  revert p q
  decide

/-- The word of plane p for the value v of an S-map: v in byte 3 - p, scattered (R146). -/
def planeWord (p : Fin 4) (v : Byte) : Word := perm32 (v.setWidth 32 <<< (24 - 8 * p.val))

theorem sp_eq_planeWord (p : Fin 4) (i : BitVec 10) : sp p i = planeWord p (sMap p (spRow i) (spCol i)) := rfl

theorem sp_and_planeMask (p : Fin 4) (i : BitVec 10) : sp p i &&& planeMask[p] = sp p i := by
  have hbyte : ∀ v : Byte, v.setWidth 32 &&& 0xFF#32 = v.setWidth 32 := fun v => by
    rw [show 0xFF#32 = (BitVec.allOnes 8).setWidth 32 from rfl, ← BitVec.setWidth_and, BitVec.and_allOnes]
  rw [planeMask_eq_perm32, sp_eq_planeWord, planeWord, ← perm32_and, ← BitVec.shiftLeft_and_distrib, hbyte]

theorem sp_and_not_planeMask (p : Fin 4) (i : BitVec 10) : sp p i &&& ~~~planeMask[p] = 0#32 := by
  rw [← sp_and_planeMask, BitVec.and_assoc, BitVec.and_not_self]
  exact BitVec.and_zero

theorem sp_disjoint {p q : Fin 4} (h : p ≠ q) (i j : BitVec 10) : sp p i &&& sp q j = 0#32 := by
  calc sp p i &&& sp q j = (sp p i &&& planeMask[p]) &&& (sp q j &&& planeMask[q]) := by
        rw [sp_and_planeMask, sp_and_planeMask]
    _ = (sp p i &&& sp q j) &&& (planeMask[p] &&& planeMask[q]) := by ac_rfl
    _ = 0#32 := by rw [planeMask_disjoint h, BitVec.and_zero]

theorem or_eq_xor_of_and_eq_zero {x y : Word} (h : x &&& y = 0#32) : x ||| y = x ^^^ y := by
  ext b hb
  have hbit : (x[b] && y[b]) = false := by rw [← BitVec.getElem_and, h, BitVec.getElem_zero]
  rw [BitVec.getElem_or, BitVec.getElem_xor]
  rcases Bool.and_eq_false_iff.1 hbit with hx | hy
  · rw [hx, Bool.false_or, Bool.false_xor]
  · rw [hy, Bool.or_false, Bool.xor_false]

theorem or_and_eq_zero {x y z : Word} (hx : x &&& z = 0#32) (hy : y &&& z = 0#32) : (x ||| y) &&& z = 0#32 := by
  rw [BitVec.and_or_distrib_right, hx, hy, BitVec.or_zero]

/-- No bit of one plane hides a bit of another, so OR is XOR. -/
theorem sp_or_eq_xor (i0 i1 i2 i3 : BitVec 10) :
    sp 0 i0 ||| sp 1 i1 ||| sp 2 i2 ||| sp 3 i3 = sp 0 i0 ^^^ sp 1 i1 ^^^ sp 2 i2 ^^^ sp 3 i3 := by
  have h1 : sp 0 i0 &&& sp 1 i1 = 0#32 := sp_disjoint (by decide) _ _
  have h2 : (sp 0 i0 ||| sp 1 i1) &&& sp 2 i2 = 0#32 :=
    or_and_eq_zero (sp_disjoint (by decide) _ _) (sp_disjoint (by decide) _ _)
  have h3 : (sp 0 i0 ||| sp 1 i1 ||| sp 2 i2) &&& sp 3 i3 = 0#32 :=
    or_and_eq_zero (or_and_eq_zero (sp_disjoint (by decide) _ _) (sp_disjoint (by decide) _ _))
      (sp_disjoint (by decide) _ _)
  rw [or_eq_xor_of_and_eq_zero h3, or_eq_xor_of_and_eq_zero h2, or_eq_xor_of_and_eq_zero h1]

/-- Settles O19: an entry is the scattered byte of its plane, which its mask keeps. -/
theorem planesNeverOverlap : Obligations.PlanesNeverOverlap :=
  ⟨fun p => ⟨planeMask_eq_perm32 p, sp_and_not_planeMask p⟩, fun _ _ => planeMask_disjoint, by decide, sp_or_eq_xor⟩

/-! ## Each row of a plane lists its 256 words once (R149) -/

theorem planeWord_injective (p : Fin 4) : Function.Injective (planeWord p) := by
  intro v w h
  have hword : v.setWidth 32 <<< (24 - 8 * p.val) = w.setWidth 32 <<< (24 - 8 * p.val) := perm32_injective h
  refine BitVec.eq_of_getLsbD_eq fun b hb => ?_
  have hbit := congrArg (BitVec.getLsbD · (24 - 8 * p.val + b)) hword
  have hlt : 24 - 8 * p.val + b < 32 := by omega
  have hb32 : b < 32 := by omega
  simpa [hlt, hb32] using hbit

/-- The table index of a row and a column: {row[1], col, row[0]} (R145). -/
def spIndex (row : Fin 4) (col : Byte) : BitVec 10 :=
  (BitVec.ofFin row : BitVec 2).extractLsb' 1 1 ++ col ++ (BitVec.ofFin row : BitVec 2).extractLsb' 0 1

theorem spIndex_spRow_spCol (i : BitVec 10) : spIndex (spRow i) (spCol i) = i := by
  unfold spIndex spRow spCol
  rw [BitVec.ofFin_toFin, BitVec.extractLsb'_append_eq_left (w := 1) (w' := 1),
    BitVec.extractLsb'_append_eq_right (w := 1) (w' := 1),
    BitVec.extractLsb'_append_extractLsb'_eq_extractLsb' (start₂ := 9) (start₁ := 1) (len₁ := 8) rfl]
  exact BitVec.extractLsb'_append_extractLsb' (w := 9)

theorem spCol_spIndex (row : Fin 4) (col : Byte) : spCol (spIndex row col) = col := by
  unfold spIndex spCol
  rw [BitVec.extractLsb'_append_eq_of_le (v := 9) (w := 1) (by decide),
    BitVec.extractLsb'_append_eq_right (w := 1) (w' := 8)]

theorem spRow_spIndex (row : Fin 4) (col : Byte) : spRow (spIndex row col) = row := by
  unfold spIndex spRow
  rw [BitVec.extractLsb'_append_eq_of_le (v := 9) (w := 1) (by decide),
    BitVec.extractLsb'_append_eq_left (w := 1) (w' := 8), BitVec.extractLsb'_append_eq_right (w := 9) (w' := 1),
    BitVec.extractLsb'_append_extractLsb' (w := 1)]

/-- Every value of an S-map stands once in every row. -/
theorem existsUnique_index_of_planeWord (p row : Fin 4) (v : Byte) :
    ∃! i, spRow i = row ∧ sp p i = planeWord p v := by
  obtain ⟨col, hcol, huniq⟩ := (sMapsAreBijections p row).2.existsUnique v
  refine ⟨spIndex row col, ⟨spRow_spIndex row col, ?_⟩, ?_⟩
  · rw [sp_eq_planeWord, spRow_spIndex, spCol_spIndex, hcol]
  · rintro j ⟨rfl, hword⟩
    rw [sp_eq_planeWord] at hword
    rw [← huniq _ (planeWord_injective p hword), spIndex_spRow_spCol]

theorem range_sp (p : Fin 4) : Set.range (sp p) = Set.range (planeWord p) := by
  refine Set.Subset.antisymm ?_ ?_
  · rintro _ ⟨i, rfl⟩
    exact ⟨_, (sp_eq_planeWord p i).symm⟩
  · rintro _ ⟨v, rfl⟩
    obtain ⟨i, ⟨-, hi⟩, -⟩ := existsUnique_index_of_planeWord p 0 v
    exact ⟨i, hi⟩

theorem ncard_range_sp (p : Fin 4) : (Set.range (sp p)).ncard = 256 := by
  rw [range_sp, Set.ncard_range_of_injective (planeWord_injective p), Nat.card_congr BitVec.equivFin.toEquiv,
    Nat.card_fin]
  rfl

/-- Settles O20: the S-map of a row is a bijection onto the bytes, and a byte is its word of the plane. -/
theorem planeEntriesAppearOncePerRow : Obligations.PlaneEntriesAppearOncePerRow := by
  refine fun p => ⟨fun i j hrow hword => ?_, ncard_range_sp p, fun j row => ?_⟩
  · exact (existsUnique_index_of_planeWord p (spRow j) _).unique ⟨hrow, hword⟩ ⟨rfl, rfl⟩
  · exact existsUnique_index_of_planeWord p row _

/-! ## F as four lookups (44_round_function.md R195, R196) -/

/-- The four lookups by shift and mask are those of the 10-bit slices (R196). -/
theorem spLookup_eq_or_of_div_mod (al ar : BitVec 20) :
    spLookup al ar = sp 0 (BitVec.ofNat 10 (al.toNat / 2 ^ 10)) ||| sp 1 (BitVec.ofNat 10 (al.toNat % 2 ^ 10)) |||
      sp 2 (BitVec.ofNat 10 (ar.toNat / 2 ^ 10)) ||| sp 3 (BitVec.ofNat 10 (ar.toNat % 2 ^ 10)) := by
  have hhigh : ∀ a : BitVec 20, BitVec.ofNat 10 (a.toNat / 2 ^ 10) = a.extractLsb' 10 10 := fun a => by
    rw [BitVec.extractLsb', Nat.shiftRight_eq_div_pow]
  have hlow : ∀ a : BitVec 20, BitVec.ofNat 10 (a.toNat % 2 ^ 10) = a.extractLsb' 0 10 := fun a =>
    BitVec.eq_of_toNat_eq (by simp)
  rw [spLookup, hhigh, hlow, hhigh, hlow]

theorem setWidth_subkey20 {k : Word} (h : k.toNat < 2 ^ 20) : (subkey20 k).setWidth 32 = k := by
  refine BitVec.eq_of_toNat_eq ?_
  rw [BitVec.toNat_setWidth_of_le (by decide), subkey20, BitVec.extractLsb'_toNat, Nat.shiftRight_zero,
    Nat.mod_eq_of_lt h]

/-- A subkey word meets a 20-bit value in its low 20 bits only. -/
theorem and_setWidth_eq_subkey20_and (k : Word) (t : BitVec 20) :
    k &&& t.setWidth 32 = (subkey20 k &&& t).setWidth 32 := by
  refine BitVec.eq_of_getLsbD_eq fun b hb => ?_
  by_cases h20 : b < 20
  · simp [subkey20, h20, hb]
  · simp [BitVec.getLsbD_of_ge t b (by omega)]

/-- Salt and subkey on 32-bit words stay in 20 bits; t is the half, tl or tr, that K2 = 0 leaves in place. -/
theorem toNat_salted (k2 : Word) {k : Word} (hk : k.toNat < 2 ^ 20) (tl tr t : BitVec 20) :
    ((k2 &&& (tl.setWidth 32 ^^^ tr.setWidth 32)) ^^^ t.setWidth 32 ^^^ k).toNat =
      ((subkey20 k2 &&& (tl ^^^ tr)) ^^^ t ^^^ subkey20 k).toNat := by
  rw [← BitVec.setWidth_xor, and_setWidth_eq_subkey20_and, ← BitVec.toNat_setWidth_of_le (show 20 ≤ 32 by decide),
    BitVec.setWidth_xor, BitVec.setWidth_xor, setWidth_subkey20 hk]

/-- Settles O23: below 2^20 the half-words are the 20-bit values that roundF slices, and the planes are disjoint. -/
theorem roundFunctionIsXorOfFourLookups : Obligations.RoundFunctionIsXorOfFourLookups := by
  intro p k0 k1 k2 h0 h1 tl tr al ar e0 e1 e2 e3
  have hal : al.toNat = _ := toNat_salted k2 h0 (expandLeft p) (expandRight p) (expandLeft p)
  have har : ar.toNat = _ := toNat_salted k2 h1 (expandLeft p) (expandRight p) (expandRight p)
  have hor : roundF p ⟨k0, k1, k2⟩ = e0 ||| e1 ||| e2 ||| e3 := by
    simp only [e0, e1, e2, e3, hal, har]
    exact spLookup_eq_or_of_div_mod _ _
  refine ⟨hor, hor.trans (sp_or_eq_xor _ _ _ _), ?_, ?_⟩
  · rw [hal]
    omega
  · rw [har]
    omega

end Sys2Proof.Machine

/-! # The key schedule (43_key_schedule.md): the rotation law, the closed form of SETKEY, and CLEAR

Every entry of KS that SETKEY writes is one function of KEYBUF and SIZE, `placedKey`, on the thin instance and on the
level-n instances alike. The closed form of a bit, the schedule's dependence on the key alone and the thin case are
read off it. -/

namespace Sys2Proof.Machine

open Claims

/-! ## The rotation law (R170) -/

/-- The right side of R170: bit n of the endless sequence that v, its complement, v, … spell, low bits first. -/
def rotationBit (v : Half) (n : Nat) : Bool := xor (v.getLsbD (n % 16)) (decide (n / 16 % 2 = 1))

theorem rotationBit_of_lt (v : Half) {n : Nat} (h : n < 16) : rotationBit v n = v.getLsbD n := by
  simp [rotationBit, Nat.mod_eq_of_lt h, Nat.div_eq_of_lt h]

theorem rotationBit_add_sixteen (v : Half) (n : Nat) : rotationBit v (n + 16) = !rotationBit v n := by
  have hflip : decide ((n + 16) / 16 % 2 = 1) = !decide (n / 16 % 2 = 1) := by
    rw [← decide_not, decide_eq_decide]
    omega
  rw [rotationBit, rotationBit, Nat.add_mod_right, hflip, Bool.xor_not]

/-- t steps of a KB word shift the sequence by t. -/
theorem kbStep_iterate_getLsbD (v : Half) (t : Nat) {i : Nat} (hi : i < 16) :
    (kbStep^[t] v).getLsbD i = rotationBit v (t + i) := by
  induction t generalizing i with
  | zero => simp [rotationBit_of_lt v hi]
  | succ t ih =>
    rw [Function.iterate_succ_apply', kbStep_getLsbD _ i hi]
    by_cases h : i = 15
    · rw [if_pos h, ih (by decide), h, show t + 1 + 15 = t + 16 by omega, rotationBit_add_sixteen, Nat.add_zero]
    · rw [if_neg h, ih (by omega), show t + (i + 1) = t + 1 + i by omega]

theorem kbStep_iterate_sixteen (v : Half) : kbStep^[16] v = ~~~v := by
  refine BitVec.eq_of_getLsbD_eq fun i hi => ?_
  rw [kbStep_iterate_getLsbD v 16 hi, Nat.add_comm, rotationBit_add_sixteen, rotationBit_of_lt v hi,
    BitVec.getLsbD_not, decide_eq_true hi, Bool.true_and]

theorem kbAt_val (kb : KeyBlock) (w : Fin 4) : kbAt kb w.val = kb[w] := by
  simp [kbAt]

/-- Settles O24: a step shifts the sequence of the word and its complement by one, and a BUILDBLOCK is 120 steps. -/
theorem keyBlockRotationLaw : Obligations.KeyBlockRotationLaw := by
  refine ⟨fun v t => kbStep_iterate_getLsbD v t (by decide), fun v => ⟨kbStep_iterate_sixteen v, ?_⟩, ?_⟩
  · rw [Function.iterate_add_apply kbStep 16 16, kbStep_iterate_sixteen, kbStep_iterate_sixteen, BitVec.not_not]
  · intro n rb sch w
    rw [← kbAt_val, ← kbAt_val, buildBlock_kbAt]

/-! ## The round keys of one key block (R171) -/

/-- The key-block buffer after n steps of each word. -/
def stepKB (n : Nat) (kb : KeyBlock) : KeyBlock := kb.map kbStep^[n]

theorem kbAt_stepKB (n : Nat) (kb : KeyBlock) (w : Nat) : kbAt (stepKB n kb) w = kbStep^[n] (kbAt kb w) := by
  simp [kbAt, stepKB]

theorem KeyBlock.ext_kbAt {a b : KeyBlock} (h : ∀ w, kbAt a w = kbAt b w) : a = b :=
  Vector.ext fun i hi => by simpa [kbAt, Nat.mod_eq_of_lt hi] using h i

theorem stepKB_zero (kb : KeyBlock) : stepKB 0 kb = kb :=
  KeyBlock.ext_kbAt fun w => kbAt_stepKB 0 kb w

theorem stepKB_stepKB (m n : Nat) (kb : KeyBlock) : stepKB m (stepKB n kb) = stepKB (m + n) kb :=
  KeyBlock.ext_kbAt fun w => by simp only [kbAt_stepKB, Function.iterate_add_apply]

theorem entries_kb_eq_stepKB (n rb : Nat) (sch : Schedule) (m : Nat) :
    (entries n rb sch m).kb = stepKB (15 * m) sch.kb :=
  KeyBlock.ext_kbAt fun w => by rw [entries_kb, kbAt_stepKB]

/-- The round key at round offset r of the c-th BUILDBLOCK on key block i. -/
def blockKey (keybuf : Memory) (i c r : Nat) : RoundKey :=
  (buildRound (keyrot (Fin.ofNat 16 (8 * c + r))).val (stepKB (15 * (8 * c + r)) (packKB keybuf (8 * i)))).key

/-- The c-th BUILDBLOCK on key block i finds KB stepped 120 times by each one before it, and writes eight entries. -/
theorem buildBlock_read_blockKey {keybuf : Memory} {sch : Schedule} {i c : Nat} (h : sch.ks.wf)
    (hkb : sch.kb = stepKB (120 * c) (packKB keybuf (8 * i))) (n j : Nat) :
    (buildBlock n (8 * c) sch).ks.read j =
      if n ≤ j ∧ j < n + 8 then blockKey keybuf i c (j - n) else sch.ks.read j := by
  rw [buildBlock_read h, entries_kb_eq_stepKB, hkb, stepKB_stepKB,
    show 15 * (j - n) + 120 * c = 15 * (8 * c + (j - n)) by omega]
  rfl

theorem buildBlock_kb_eq_stepKB (n rb : Nat) (sch : Schedule) : (buildBlock n rb sch).kb = stepKB 120 sch.kb :=
  entries_kb_eq_stepKB n rb sch 8

theorem kbAt_packKB (keybuf : Memory) (i w : Nat) : kbAt (packKB keybuf (8 * i)) w = packedWord keybuf i (w % 4) := by
  rw [← kbAt_mod]
  have h : w % 4 = 0 ∨ w % 4 = 1 ∨ w % 4 = 2 ∨ w % 4 = 3 := by omega
  rcases h with h | h | h | h <;> rw [h] <;> rfl

/-- R171: each bit of a round key in closed form. -/
theorem blockKey_bit (keybuf : Memory) (i c r : Nat) {x q k : Nat} (hx : x < 3) (hq : q < 5) (hk : k < 4) :
    ((blockKey keybuf i c r).word x).getLsbD (19 - (4 * q + k)) = scheduleBit keybuf i c r x q k := by
  rw [blockKey, buildRound_bit _ _ hx hq hk, roundBits, kbAt_stepKB, ← Function.iterate_add_apply,
    kbStep_iterate_getLsbD _ _ (by decide), kbAt_packKB, Nat.add_zero, Nat.add_comm (3 * q + x)]
  rfl

/-- PackKB reads eight bytes of KEYBUF. -/
theorem packKB_congr {a b : Memory} {off : Nat} (h : ∀ d < 8, a.read (off + d) = b.read (off + d)) :
    packKB a off = packKB b off := by
  have half (d : Nat) (hd : d < 7) : keyHalf a (off + d) = keyHalf b (off + d) := by
    rw [keyHalf, keyHalf, h d (by omega), Nat.add_assoc, h (d + 1) (by omega)]
  have h0 : keyHalf a off = keyHalf b off := half 0 (by decide)
  rw [packKB, packKB, half 6 (by decide), half 4 (by decide), half 2 (by decide), h0]

/-! ## The placement of the key blocks (R178) -/

/-- The key block that feeds entry j: forward placements below 8·SIZE, mirrored ones from there on. -/
def keyBlockOf (size j : Nat) : Nat := if j < 8 * size then j / 8 else (16 * size - 1 - j) / 8

/-- The round key that SETKEY leaves in entry j. -/
def placedKey (keybuf : Memory) (size j : Nat) : RoundKey :=
  blockKey keybuf (keyBlockOf size j) (if j < 8 * size then 0 else 1) (j % 8)

theorem keyBlockOf_lt {size j : Nat} (h : j < 16 * size) : keyBlockOf size j < size := by
  unfold keyBlockOf
  split <;> omega

/-- R178: the entries key block i feeds are eight from the start and eight from the end. -/
theorem keyBlockOf_eq_iff {size i j : Nat} (hi : i < size) :
    j < 16 * size ∧ keyBlockOf size j = i ↔
      (8 * i ≤ j ∧ j < 8 * i + 8) ∨ (16 * size - 8 - 8 * i ≤ j ∧ j < 16 * size - 8 - 8 * i + 8) := by
  unfold keyBlockOf
  split <;> omega

theorem placedKey_forward (keybuf : Memory) {size i r : Nat} (hi : i < size) (hr : r < 8) :
    placedKey keybuf size (8 * i + r) = blockKey keybuf i 0 r := by
  obtain ⟨-, hblock⟩ := (keyBlockOf_eq_iff (j := 8 * i + r) hi).2 (.inl (by omega))
  rw [placedKey, hblock, if_pos (by omega), show (8 * i + r) % 8 = r by omega]

theorem placedKey_mirrored (keybuf : Memory) {size i r : Nat} (hi : i < size) (hr : r < 8) :
    placedKey keybuf size (16 * size - 8 - 8 * i + r) = blockKey keybuf i 1 r := by
  obtain ⟨-, hblock⟩ := (keyBlockOf_eq_iff (j := 16 * size - 8 - 8 * i + r) hi).2 (.inr (by omega))
  rw [placedKey, hblock, if_neg (by omega), show (16 * size - 8 - 8 * i + r) % 8 = r by omega]

/-- The entries of an instance depend on its 8·SIZE key bytes alone. -/
theorem placedKey_congr {a b : Memory} {size j : Nat} (h : ∀ d < 8 * size, a.read d = b.read d) (hj : j < 16 * size) :
    placedKey a size j = placedKey b size j := by
  have hblock := keyBlockOf_lt hj
  rw [placedKey, placedKey, blockKey, blockKey, packKB_congr fun d hd => h _ (by omega)]

/-- R168 for every entry. -/
theorem placedKey_narrow (keybuf : Memory) (size j x : Nat) : ((placedKey keybuf size j).word x).toNat < 2 ^ 20 :=
  buildRound_narrow _ _ _

/-- Key block i writes the entries it feeds and no other. -/
theorem expandBlock_read {keybuf : Memory} {size i : Nat} {sch : Schedule} (h : sch.ks.wf) (hi : i < size) (j : Nat) :
    (expandBlock keybuf (16 * size) i sch).ks.read j =
      if j < 16 * size ∧ keyBlockOf size j = i then placedKey keybuf size j else sch.ks.read j := by
  have hforward := buildBlock_read_blockKey (c := 0) (sch := { sch with kb := packKB keybuf (8 * i) }) h
    (stepKB_zero _).symm (8 * i) j
  have hmirrored := buildBlock_read_blockKey (c := 1)
    (sch := buildBlock (8 * i) 0 { sch with kb := packKB keybuf (8 * i) }) (buildBlock_wf h)
    (buildBlock_kb_eq_stepKB _ _ _) (16 * size - 8 - 8 * i) j
  rw [expandBlock, hmirrored, hforward]
  simp only [keyBlockOf_eq_iff hi]
  by_cases hlate : 16 * size - 8 - 8 * i ≤ j ∧ j < 16 * size - 8 - 8 * i + 8
  · obtain ⟨r, rfl⟩ := Nat.exists_eq_add_of_le hlate.1
    rw [if_pos hlate, if_pos (.inr hlate), placedKey_mirrored keybuf hi (by omega), Nat.add_sub_cancel_left]
  · rw [if_neg hlate]
    by_cases hearly : 8 * i ≤ j ∧ j < 8 * i + 8
    · obtain ⟨r, rfl⟩ := Nat.exists_eq_add_of_le hearly.1
      rw [if_pos hearly, if_pos (.inl hearly), placedKey_forward keybuf hi (by omega), Nat.add_sub_cancel_left]
    · rw [if_neg hearly, if_neg (by simp only [hlate, hearly, or_self, not_false_eq_true])]

/-- The first m key blocks write the entries they feed and no other. -/
theorem blocks_read {keybuf : Memory} {size m : Nat} {sch : Schedule} (h : sch.ks.wf) (hm : m ≤ size) (j : Nat) :
    (blocks keybuf (16 * size) sch m).ks.read j =
      if j < 16 * size ∧ keyBlockOf size j < m then placedKey keybuf size j else sch.ks.read j := by
  induction m with
  | zero => rw [if_neg (by omega)]; rfl
  | succ m ih =>
    rw [blocks_succ, expandBlock_read (blocks_wf h m) hm, ih (by omega)]
    by_cases hnow : j < 16 * size ∧ keyBlockOf size j = m
    · rw [if_pos hnow, if_pos (by omega)]
    · rw [if_neg hnow]
      exact if_congr (by omega) rfl rfl

theorem expandGeneral_read (keybuf : Memory) (size : Nat) {sch : Schedule} (h : sch.ks.wf) (j : Nat) :
    (expandGeneral keybuf size (16 * size) sch).ks.read j =
      if j < 16 * size then placedKey keybuf size j else sch.ks.read j := by
  rw [expandGeneral_eq, blocks_read h le_rfl]
  exact if_congr (and_iff_left_of_imp keyBlockOf_lt) rfl rfl

/-- The thin schedule is the forward half of level 1's (R176). -/
theorem expandThin_read (keybuf : Memory) {sch : Schedule} (h : sch.ks.wf) (j : Nat) :
    (expandThin keybuf sch).ks.read j = if j < 8 then placedKey keybuf 1 j else sch.ks.read j := by
  have hforward := buildBlock_read_blockKey (c := 0) (i := 0) (sch := { sch with kb := packKB keybuf 0 }) h
    (stepKB_zero _).symm 0 j
  rw [expandThin, hforward]
  by_cases hj : j < 8
  · have hplaced := placedKey_forward keybuf (size := 1) (i := 0) (by decide) hj
    rw [Nat.mul_zero, Nat.zero_add] at hplaced
    rw [if_pos ⟨j.zero_le, by omega⟩, if_pos hj, hplaced, Nat.sub_zero]
  · rw [if_neg (by omega), if_neg hj]

/-! ## SETKEY -/

/-- The two forms of a configured engine: thin with one key block and 8 rounds, or with 16 rounds a key block. -/
def State.Geometric (s : State) : Prop :=
  (s.status.thin = true ∧ s.size.toNat = 1 ∧ s.rounds.toNat = 8) ∨
    (s.status.thin = false ∧ s.rounds.toNat = 16 * s.size.toNat)

theorem State.Geometric.size_eq {s : State} (h : s.Geometric) :
    s.size.toNat = if s.status.thin then 1 else s.rounds.toNat / 16 := by
  rcases h with ⟨ht, hs, -⟩ | ⟨ht, hr⟩
  · rw [if_pos ht, hs]
  · rw [if_neg (by simp [ht]), hr, Nat.mul_div_cancel_left _ (by decide)]

theorem State.Geometric.rounds_le {s : State} (h : s.Geometric) : s.rounds.toNat ≤ 16 * s.size.toNat := by
  rcases h with ⟨-, hs, hr⟩ | ⟨-, hr⟩ <;> omega

/-- What SETKEY leaves in KS, thin or not. -/
theorem State.expandKey_read {s : State} (hg : s.Geometric) (hks : s.ks.wf) (j : Nat) :
    s.expandKey.ks.read j = if j < s.rounds.toNat then placedKey s.keybuf s.size.toNat j else s.ks.read j := by
  rcases hg with ⟨ht, hs, hr⟩ | ⟨ht, hr⟩
  · rw [State.expandKey, if_pos ht, hs, hr]
    exact expandThin_read s.keybuf hks j
  · rw [State.expandKey, if_neg (by simp [ht]), hr]
    exact expandGeneral_read s.keybuf s.size.toNat hks j

/-- SETKEY writes KS, KB and ROUNDIDX. -/
theorem State.expandKey_frame (s : State) :
    s.expandKey = { s with ks := s.expandKey.ks, kb := s.expandKey.kb, roundIdx := s.expandKey.roundIdx } := by
  unfold State.expandKey
  split <;> rfl

theorem State.expandKey_roundIdx_of_thin {s : State} (h : s.status.thin = true) :
    s.expandKey.roundIdx = s.roundIdx := by
  rw [State.expandKey, if_pos h]

/-- Settles O25: each entry is a round key of the key block that feeds it, which has the closed form. -/
theorem setkeyExpandsToClosedForm : Obligations.SetkeyExpandsToClosedForm := by
  intro s hc ht hks hr
  have hread := State.expandKey_read (.inr ⟨ht, hr⟩) hks
  refine ⟨_, exec_setkey_ready hc, fun i r x q k hi hr8 hx hq hk => ⟨?_, ?_⟩, fun j x hj => ?_, fun j hj => ?_, ?_⟩
  · rw [State.finish_ks, hread, if_pos (by omega), placedKey_forward s.keybuf hi hr8, blockKey_bit _ _ _ _ hx hq hk]
  · rw [State.finish_ks, hread, if_pos (by omega), placedKey_mirrored s.keybuf hi hr8, blockKey_bit _ _ _ _ hx hq hk]
  · rw [State.finish_ks, hread, if_pos hj]
    exact placedKey_narrow _ _ _ _
  · rw [State.finish_ks, hread, if_neg (by omega)]
  · exact congrArg State.finish s.expandKey_frame

/-- Settles O26: the thin engine and the level-1 engine hold the same round keys as far as the thin one goes. -/
theorem thinScheduleIsStartOfLevelOne : Obligations.ThinScheduleIsStartOfLevelOne := by
  intro s u hcs hts hss hrs hks hcu htu hsu hru hku hkey
  have hsetkey {v : State} (hc : v.status.cfg = true) (hv : v.size = 1) :
      exec (.setkey 8) v = .next v.expandKey.finish := by
    have h := exec_setkey_ready hc
    rwa [hv] at h
  have hthin (j : Nat) : s.expandKey.ks.read j = if j < 8 then placedKey s.keybuf 1 j else s.ks.read j := by
    rw [State.expandKey_read (.inl ⟨hts, by simp [hss], by simp [hrs]⟩) hks, hrs, hss]
    rfl
  have hone (j : Nat) : u.expandKey.ks.read j = if j < 16 then placedKey u.keybuf 1 j else u.ks.read j := by
    rw [State.expandKey_read (.inr ⟨htu, by simp [hsu, hru]⟩) hku, hru, hsu]
    rfl
  refine ⟨_, _, hsetkey hcs hss, hsetkey hcu hsu, fun r x q k hr hx hq hk => ?_, fun r hr => ?_, fun j hj => ?_, ?_⟩
  · rw [State.finish_ks, hthin, if_pos hr, ← blockKey_bit _ _ _ _ hx hq hk,
      ← placedKey_forward s.keybuf Nat.zero_lt_one hr, Nat.mul_zero, Nat.zero_add]
  · rw [State.finish_ks, State.finish_ks, hthin, hone, if_pos hr, if_pos (by omega), placedKey_congr hkey (by omega)]
  · rw [State.finish_ks, hthin, if_neg (by omega)]
  · rw [State.finish_ks, State.finish_kb, ← State.expandKey_roundIdx_of_thin hts]
    exact congrArg State.finish s.expandKey_frame

/-- Settles O27: both engines have one SIZE, and an entry is fixed by SIZE and the key bytes. -/
theorem scheduleDependsOnKeyAlone : Obligations.ScheduleDependsOnKeyAlone := by
  intro s u hs hu hcs hcu hrounds hthin hkey
  obtain ⟨-, -, (hgs : s.Geometric)⟩ := hs.geometry hcs
  obtain ⟨-, -, (hgu : u.Geometric)⟩ := hu.geometry hcu
  have hsize : u.size.toNat = s.size.toNat := by rw [hgu.size_eq, hgs.size_eq, hthin, hrounds]
  refine ⟨_, _, exec_setkey_ready hcs, hsize ▸ exec_setkey_ready hcu, rfl, rfl, fun j hj => ?_⟩
  rw [State.finish_ks, State.finish_ks, State.expandKey_read hgs hs.ksWf, State.expandKey_read hgu hu.ksWf,
    if_pos hj, if_pos (hrounds ▸ hj), hsize, placedKey_congr hkey (hj.trans_le hgs.rounds_le)]

/-! ## CLEAR -/

/-- Settles O28: CLEAR's exits, and a CLEAR word with an operand is illegal. -/
theorem clearZeroesOnlyTheSchedule : Obligations.ClearZeroesOnlyTheSchedule := by
  intro s
  refine ⟨fun hc => ⟨_, exec_clear_ready hc, fun _ => rfl, rfl⟩, exec_noInstance trivial, fun w hop harg => ?_⟩
  exact (illegalWordsFailAndAllOthersAreCommands w s).1 (.inr (.inr ⟨.inl hop, harg⟩))

end Sys2Proof.Machine

/-! # The round function's expansions and salt (44_round_function.md R191, R192, R194)

Each expansion and the salt get one equation for bit b; the two claims compare bits. -/

namespace Sys2Proof.Machine

/-! ## The expansions bit by bit -/

theorem expandLeft_getLsbD (p : Word) (b : Nat) :
    (expandLeft p).getLsbD b =
      if b < 10 then p.getLsbD (16 + b)
      else if b < 18 then p.getLsbD (14 + b) else decide (b < 20) && p.getLsbD (b - 18) := by
  rw [expandLeft, BitVec.getLsbD_append, BitVec.getLsbD_append]
  by_cases h10 : b < 10
  · simp [h10]
  · by_cases h18 : b < 18
    · have h8 : b - 10 < 8 := by omega
      simp [h10, h18, h8, show 24 + (b - 10) = 14 + b by omega]
    · simp [h10, h18, show ¬ b - 10 < 8 by omega, show b - 10 - 8 = b - 18 by omega,
        show b - 18 < 2 ↔ b < 20 by omega]

theorem expandRight_getLsbD (p : Word) (b : Nat) :
    (expandRight p).getLsbD b = if b < 10 then p.getLsbD b else decide (b < 20) && p.getLsbD (b - 2) := by
  rw [expandRight, BitVec.getLsbD_append]
  by_cases h10 : b < 10
  · simp [h10]
  · simp [h10, show 8 + (b - 10) = b - 2 by omega, show b - 10 < 10 ↔ b < 20 by omega]

/-- 0x3FF selects the low ten bits, the range tl[9:0] or tr[9:0]. -/
theorem lowMask_getLsbD {b : Nat} (hb : b < 32) : (0x3FF : Word).getLsbD b = decide (b < 10) := by
  decide +revert

/-- 0xFFC00 selects the ten bits above them, tl[19:10] or tr[19:10]. -/
theorem highMask_getLsbD {b : Nat} (hb : b < 32) : (0xFFC00 : Word).getLsbD b = decide (10 ≤ b ∧ b < 20) := by
  decide +revert

theorem expandLeft_eq_shifts (p : Word) :
    (expandLeft p).setWidth 32 = ((p >>> 16) &&& (0x3FF : Word)) ||| (((p >>> 14) ||| (p <<< 18)) &&& 0xFFC00) := by
  refine BitVec.eq_of_getLsbD_eq fun b hb => ?_
  rw [BitVec.getLsbD_setWidth, expandLeft_getLsbD, BitVec.getLsbD_or, BitVec.getLsbD_and, BitVec.getLsbD_and,
    lowMask_getLsbD hb, highMask_getLsbD hb]
  by_cases h10 : b < 10
  · simp [hb, h10]
  · by_cases h18 : b < 18
    · simp [hb, h10, h18, show 10 ≤ b by omega, show b < 20 by omega]
    · simp [hb, h10, h18, show 10 ≤ b by omega, show b - 18 < 32 by omega,
        BitVec.getLsbD_of_ge p (14 + b) (by omega), Bool.and_comm]

theorem expandRight_eq_shifts (p : Word) :
    (expandRight p).setWidth 32 = (p &&& (0x3FF : Word)) ||| ((p <<< 2) &&& 0xFFC00) := by
  refine BitVec.eq_of_getLsbD_eq fun b hb => ?_
  rw [BitVec.getLsbD_setWidth, expandRight_getLsbD, BitVec.getLsbD_or, BitVec.getLsbD_and, BitVec.getLsbD_and,
    lowMask_getLsbD hb, highMask_getLsbD hb]
  by_cases h10 : b < 10
  · simp [hb, h10]
  · simp [hb, h10, show 10 ≤ b by omega, show ¬ b < 2 by omega, show b - 2 < 32 by omega, Bool.and_comm]

/-- Settles O21: both sides of each expression have the same 32 bits, field by field. -/
theorem expansionsAsShiftsAndMasks : Obligations.ExpansionsAsShiftsAndMasks :=
  fun p => ⟨expandLeft_eq_shifts p, expandRight_eq_shifts p⟩

/-! ## The salt bit by bit -/

theorem saltSwap_fst_getLsbD (k2 tl tr : BitVec 20) (b : Nat) :
    (saltSwap k2 tl tr).1.getLsbD b = if k2.getLsbD b then tr.getLsbD b else tl.getLsbD b := by
  cases hk : k2.getLsbD b <;> simp [saltSwap, hk, Bool.xor_comm]

theorem saltSwap_snd_getLsbD (k2 tl tr : BitVec 20) (b : Nat) :
    (saltSwap k2 tl tr).2.getLsbD b = if k2.getLsbD b then tl.getLsbD b else tr.getLsbD b := by
  cases hk : k2.getLsbD b <;> simp [saltSwap, hk]

/-- The datapath takes a subkey word modulo 2^20. -/
theorem subkey20_congr {k k' : Word} (h : k % 2 ^ 20 = k' % 2 ^ 20) : subkey20 k = subkey20 k' := by
  have hmod : k.toNat % 2 ^ 20 = k'.toNat % 2 ^ 20 := congrArg BitVec.toNat h
  refine BitVec.eq_of_toNat_eq ?_
  simpa [subkey20] using hmod

/-- Settles O22: the swap is a choice in each bit, and F takes K2 through its low 20 bits alone. -/
theorem saltSwapsBitByBit : Obligations.SaltSwapsBitByBit := by
  refine ⟨fun k2 tl tr b _ => ⟨fun hk => ?_, fun hk => ?_⟩, fun p k0 k1 k2 k2' hk => ?_⟩
  · rw [saltSwap_fst_getLsbD, saltSwap_snd_getLsbD, if_pos hk, if_pos hk]
    exact ⟨rfl, rfl⟩
  · rw [saltSwap_fst_getLsbD, saltSwap_snd_getLsbD, hk]
    exact ⟨rfl, rfl⟩
  · simp only [roundF, subkey20_congr hk]

end Sys2Proof.Machine

/-! # The cipher commands and the queries (45_cipher_engine.md)

Both loops run one list of pairs of rounds, the decryption loop with the round keys counted from the last; the states
after each pair are the trace of R210 and R211. -/

namespace Sys2Proof.Machine

open Claims

/-! ## One form for both loops -/

/-- The half-blocks after a number of pairs of rounds, the round keys in the order they are used. -/
def halvesAfter (key : Nat → RoundKey) (h : Halves) : Nat → Halves
  | 0 => h
  | p + 1 => feistelPair (key (2 * p)) (key (2 * p + 1)) (halvesAfter key h p)

theorem foldl_feistelPair (key : Nat → RoundKey) (h : Halves) (n : Nat) :
    (List.range n).foldl (fun h p => feistelPair (key (2 * p)) (key (2 * p + 1)) h) h = halvesAfter key h n := by
  induction n with
  | zero => rfl
  | succ n ih => rw [List.range_succ, List.foldl_append, ih]; rfl

theorem encryptRounds_eq_halvesAfter (ks : KeyFile) (rounds : Nat) (h : Halves) :
    encryptRounds ks rounds h = halvesAfter ks.read h (rounds / 2) := foldl_feistelPair ks.read h (rounds / 2)

theorem decryptRounds_eq_halvesAfter (ks : KeyFile) (rounds : Nat) (h : Halves) :
    decryptRounds ks rounds h = halvesAfter (fun i => ks.read (rounds - 1 - i)) h (rounds / 2) := by
  have hodd (p : Nat) : rounds - 2 - 2 * p = rounds - 1 - (2 * p + 1) := by omega
  simp only [decryptRounds, hodd]
  exact foldl_feistelPair (fun i => ks.read (rounds - 1 - i)) h (rounds / 2)

/-- Only the round keys of the pairs that run enter. -/
theorem halvesAfter_congr {key key' : Nat → RoundKey} {n : Nat} (hkey : ∀ i < 2 * n, key i = key' i) (h : Halves) :
    halvesAfter key h n = halvesAfter key' h n := by
  induction n with
  | zero => rfl
  | succ n ih =>
    simp only [halvesAfter, ih fun i hi => hkey i (by omega), hkey (2 * n) (by omega), hkey (2 * n + 1) (by omega)]

theorem encryptTrace_halvesAfter (ks : KeyFile) (pairs : Nat) (h : Halves) :
    EncryptTrace ks pairs (fun p => (halvesAfter ks.read h p).l) (fun p => (halvesAfter ks.read h p).r) :=
  fun _ _ => ⟨rfl, rfl⟩

theorem decryptTrace_halvesAfter (ks : KeyFile) (pairs : Nat) (h : Halves) :
    DecryptTrace ks pairs (fun p => (halvesAfter (fun i => ks.read (2 * pairs - 1 - i)) h p).l)
      (fun p => (halvesAfter (fun i => ks.read (2 * pairs - 1 - i)) h p).r) := by
  intro p _
  have hodd : 2 * pairs - 2 - 2 * p = 2 * pairs - 1 - (2 * p + 1) := by omega
  rw [hodd]
  exact ⟨rfl, rfl⟩

/-! ## The byte order of a block (20_memory.md R68, R69) -/

theorem blockIs_loadBlock (b : Block) : BlockIs b (loadBlock b).l (loadBlock b).r :=
  ⟨word_of_bytes_toNat _ _ _ _, word_of_bytes_toNat _ _ _ _⟩

theorem blockIs_storeBlock (h : Halves) : BlockIs (storeBlock h) h.r h.l := by
  simpa using blockIs_loadBlock (storeBlock h)

/-! ## ENCRYPT and DECRYPT -/

/-- The frame of both commands: BLKOUT, the scratch registers they use and the end of the command. -/
theorem State.storeOutput_finish (s : State) (h : Halves) (n : Nat) :
    (s.storeOutput h n).finish =
      { s with blkout := storeBlock h, l := h.l, r := h.r, roundIdx := n, status := okStatus s.status } := rfl

theorem exec_encrypt_wrongLength {s : State} {n : Nat} (hc : s.status.cfg = true) (hn : n ≠ 8) :
    exec (.encrypt n) s = .next (s.raise .invalidBlockLength) := by
  rw [exec_encrypt, if_neg (by simp [hc]), if_neg hn]

theorem exec_decrypt_wrongLength {s : State} {n : Nat} (hc : s.status.cfg = true) (hn : n ≠ 8) :
    exec (.decrypt n) s = .next (s.raise .invalidBlockLength) := by
  rw [exec_decrypt, if_neg (by simp [hc]), if_neg hn]

/-- Settles O30: the half-blocks after each pair of the encryption loop are the trace. -/
theorem encryptFollowsTheLoop : Obligations.EncryptFollowsTheLoop := by
  intro s pairs
  refine ⟨fun hc hr => ?_, fun _ hc => exec_noInstance trivial hc, fun _ hc hn => exec_encrypt_wrongLength hc hn⟩
  have hloop : encryptRounds s.ks s.rounds.toNat (loadBlock s.blkin) =
      halvesAfter s.ks.read (loadBlock s.blkin) pairs := by
    rw [encryptRounds_eq_halvesAfter, hr, Nat.mul_div_cancel_left _ Nat.two_pos]
  refine ⟨_, _, _, exec_encrypt_ready hc, blockIs_loadBlock s.blkin,
    encryptTrace_halvesAfter s.ks pairs (loadBlock s.blkin), ?_, State.storeOutput_finish _ _ _⟩
  rw [hloop]
  exact blockIs_storeBlock _

/-- Settles O31: the half-blocks after each pair of the decryption loop are the trace. -/
theorem decryptFollowsTheLoop : Obligations.DecryptFollowsTheLoop := by
  intro s pairs
  refine ⟨fun hc hr => ?_, fun _ hc => exec_noInstance trivial hc, fun _ hc hn => exec_decrypt_wrongLength hc hn⟩
  have hloop : decryptRounds s.ks s.rounds.toNat (loadBlock s.blkin) =
      halvesAfter (fun i => s.ks.read (2 * pairs - 1 - i)) (loadBlock s.blkin) pairs := by
    rw [decryptRounds_eq_halvesAfter, hr, Nat.mul_div_cancel_left _ Nat.two_pos]
  refine ⟨_, _, _, exec_decrypt_ready hc, blockIs_loadBlock s.blkin,
    decryptTrace_halvesAfter s.ks pairs (loadBlock s.blkin), ?_, State.storeOutput_finish _ _ _⟩
  rw [hloop]
  exact blockIs_storeBlock _

/-- The decryption loop is the encryption loop under the reversed schedule (R221). -/
theorem decryptRounds_eq_encryptRounds {ks rev : KeyFile} {rounds : Nat}
    (hrev : ∀ i < rounds, rev.read i = ks.read (rounds - 1 - i)) (h : Halves) :
    decryptRounds ks rounds h = encryptRounds rev rounds h := by
  rw [decryptRounds_eq_halvesAfter, encryptRounds_eq_halvesAfter]
  exact halvesAfter_congr (fun i hi => (hrev i (by omega)).symm) h

/-- Settles O32: both commands store the half-blocks of one loop. -/
theorem decryptIsEncryptOfReversedSchedule : Obligations.DecryptIsEncryptOfReversedSchedule := by
  intro s ks hc _ hrev
  refine ⟨_, _, exec_decrypt_ready hc, exec_encrypt_ready hc, ?_⟩
  exact congrArg storeBlock (decryptRounds_eq_encryptRounds hrev (loadBlock s.blkin))

/-! ## KEYSIZE and BLOCKSIZE -/

theorem exec_keysize_ready {s : State} (hc : s.status.cfg = true) :
    exec .keysize s = .next (s.setResult (BitVec.ofNat 32 (8 * s.size.toNat))).finish := by
  rw [exec_keysize, if_neg (by simp [hc])]

/-- On a part within R6 the key size of an instance does not wrap. -/
theorem State.InstanceInv.keyBytes_lt {s : State} (h : s.InstanceInv) (hp : s.part.wf) (hc : s.status.cfg = true) :
    8 * s.size.toNat < 2 ^ 32 := by
  obtain ⟨-, hmax⟩ := hp
  rcases h.configured hc with ⟨-, hs, -⟩ | ⟨-, -, hs, -⟩ <;> omega

/-- Settles O34: KEYSIZE's exits, and a KEYSIZE word with an operand is illegal. -/
theorem keysizeReturnsKeyBytes : Obligations.KeysizeReturnsKeyBytes := by
  intro s
  refine ⟨fun hp hc hinst => ⟨_, exec_keysize_ready hc, ?_, rfl⟩, exec_noInstance trivial, fun w hop harg => ?_⟩
  · exact (BitVec.toNat_ofNat _ 32).trans (Nat.mod_eq_of_lt (hinst.keyBytes_lt hp hc))
  · exact (illegalWordsFailAndAllOthersAreCommands w s).1 (.inr (.inr ⟨.inr (.inl hop), harg⟩))

/-- Settles O35: BLOCKSIZE's one exit, and a BLOCKSIZE word with an operand is illegal. -/
theorem blocksizeReturnsEight : Obligations.BlocksizeReturnsEight := by
  intro s
  refine ⟨⟨_, exec_blocksize s, rfl, rfl⟩, fun w hop harg => ?_⟩
  exact (illegalWordsFailAndAllOthersAreCommands w s).1 (.inr (.inr ⟨.inr (.inr hop), harg⟩))

end Sys2Proof.Machine

/-! # The order of the checks (60_exceptions.md R247)

A command past the NoInstance check fails by its own operand check alone, or succeeds. -/

namespace Sys2Proof.Machine

open Claims

variable {i : Instr} {s : State} {code : BitVec 4}

/-- Past the NoInstance check the operand check decides the code (R241, R242). -/
theorem exec_operandError (hready : needsInstance i → s.status.cfg = true) (h : operandError i s code) :
    exec i s = .next (failedWith code s) := by
  cases i with
  | construct level =>
    obtain ⟨hlevel, -, rfl⟩ := h
    exact exec_construct_of_gt hlevel
  | setkey n =>
    obtain ⟨hn, rfl⟩ := h
    rw [exec_setkey, if_neg (by simp [hready trivial]), if_neg hn]
    rfl
  | clear => exact h.elim
  | encrypt n =>
    obtain ⟨hn, rfl⟩ := h
    exact exec_encrypt_wrongLength (hready trivial) hn
  | decrypt n =>
    obtain ⟨hn, rfl⟩ := h
    exact exec_decrypt_wrongLength (hready trivial) hn
  | keysize => exact h.elim
  | blocksize => exact h.elim

/-- Past every check a command ends by `finish`, and its rule has not touched EANY (R246). -/
theorem exec_finishes (hready : needsInstance i → s.status.cfg = true) (hok : ∀ code, ¬ operandError i s code) :
    ∃ u : State, exec i s = .next u.finish ∧ u.status.eany = s.status.eany := by
  cases i with
  | construct level =>
    have hlevel : level ≤ s.part.levelMax := by
      by_contra hgt
      exact hok 5 ⟨by omega, by omega, rfl⟩
    exact ⟨_, exec_construct_of_le hlevel, rfl⟩
  | setkey n =>
    obtain rfl : n = 8 * s.size.toNat := by_contra fun hn => hok 1 ⟨hn, rfl⟩
    exact ⟨_, exec_setkey_ready (hready trivial), by simp⟩
  | clear => exact ⟨_, exec_clear_ready (hready trivial), rfl⟩
  | encrypt n =>
    obtain rfl : n = 8 := by_contra fun hn => hok 2 ⟨hn, rfl⟩
    exact ⟨_, exec_encrypt_ready (hready trivial), rfl⟩
  | decrypt n =>
    obtain rfl : n = 8 := by_contra fun hn => hok 2 ⟨hn, rfl⟩
    exact ⟨_, exec_decrypt_ready (hready trivial), rfl⟩
  | keysize => exact ⟨_, exec_keysize_ready (hready trivial), rfl⟩
  | blocksize => exact ⟨_, exec_blocksize s, rfl⟩

theorem configured_of_not_noInstance (h : ¬ (needsInstance i ∧ s.status.cfg = false)) (hi : needsInstance i) :
    s.status.cfg = true :=
  Bool.eq_true_of_not_eq_false fun hc => h ⟨hi, hc⟩

/-- Settles O8: the word is decoded, then CFG is checked, then the operand, and each check that fails ends the word. -/
theorem everyWordEndsAsPrecedenceSays : Obligations.EveryWordEndsAsPrecedenceSays := by
  intro w s
  refine ⟨fun code h => ?_, fun hno => ?_⟩
  · rcases h with ⟨hill, rfl⟩ | ⟨i, hd, ⟨hi, hc, rfl⟩ | ⟨hready, hop⟩⟩
    · exact (illegalWordsFailAndAllOthersAreCommands w s).1 hill
    · exact (executeWord_of_decode_ok hd s).trans (exec_noInstance hi hc)
    · exact (executeWord_of_decode_ok hd s).trans (exec_operandError (configured_of_not_noInstance hready) hop)
  · cases hd : decode w with
    | error e => exact absurd (.inl ⟨illegalWord_of_decode_error hd, rfl⟩) (hno 4)
    | ok i =>
      have hready : ¬ (needsInstance i ∧ s.status.cfg = false) := fun ⟨hi, hc⟩ =>
        hno 3 (.inr ⟨i, hd, .inl ⟨hi, hc, rfl⟩⟩)
      obtain ⟨u, hu, heany⟩ := exec_finishes (configured_of_not_noInstance hready) fun code hop =>
        hno code (.inr ⟨i, hd, .inr ⟨hready, hop⟩⟩)
      exact ⟨u.finish, (executeWord_of_decode_ok hd s).trans hu, rfl, heany, rfl⟩

end Sys2Proof.Machine

/-! # Reset and the host duty (70_reset_and_hazards.md R270, R282)

A reset and a read of the WAIT loop complete whatever BUSY is; every other access but a STATUS read needs BUSY = 0. -/

namespace Sys2Proof.Machine

/-! ## Reset -/

theorem runHostOp_reset (s : State) : runHostOp .reset s = .next (resetEngine s) := rfl

/-- Both block buffers of a reset engine hold 0. -/
theorem State.resetOf_blocks (p : Part) (i : Fin 8) :
    (State.resetOf p).blkin[i] = 0 ∧ (State.resetOf p).blkout[i] = 0 :=
  ⟨Vector.getElem_replicate i.isLt, Vector.getElem_replicate i.isLt⟩

/-- Settles O44: the step ends in `resetEngine`, whose empty lists read as their reset values. -/
theorem resetGivesTheTableOfValues : Obligations.ResetGivesTheTableOfValues := by
  intro s rest ho
  exact ⟨_, (step_cons ho).trans (runHostOp_reset _), rfl, rfl, rfl, rfl, Cells.read_nil 0, State.resetOf_blocks s.part,
    Cells.read_nil RoundKey.zero, rfl, rfl, rfl⟩

/-! ## The host duty -/

/-- While BUSY = 1 the duty admits the STATUS read, the WAIT loop and reset, and nothing else. -/
theorem keepsDuty_true_iff {op : HostOp} :
    keepsDuty true op = true ↔ op = .memRead 0x004 4 ∨ op = .wait ∨ op = .reset := by
  cases op with
  | memRead off n => simp [keepsDuty]
  | memWrite off n v => simp [keepsDuty]
  | wait => simp [keepsDuty]
  | reset => simp [keepsDuty]

/-- An operation that breaks the host duty is refused. -/
theorem runHostOp_of_not_keepsDuty {op : HostOp} {s : State} (h : ¬ keepsDuty s.status.busy op = true) :
    runHostOp op s = .refused .hostDuty := by
  unfold runHostOp
  exact if_neg h

theorem runHostOp_wait (s : State) : runHostOp .wait s = .next (waitOnce s) := rfl

/-- A read of the WAIT loop returns STATUS and puts the loop back exactly while BUSY = 1. -/
theorem waitOnce_eq (s : State) : waitOnce s =
    { s with
      hostOps := if s.status.busy then .wait :: s.hostOps else s.hostOps
      replies := s.replies ++ [.word s.status.word] } := by
  unfold waitOnce
  split <;> rfl

/-- Settles O48: a write, or a read elsewhere than STATUS, breaks the host duty, and WAIT keeps it. -/
theorem hostDutyWhileBusy : Obligations.HostDutyWhileBusy := by
  intro s op rest ho
  refine ⟨fun hb haccess => ?_, ?_⟩
  · have hduty : ¬ keepsDuty s.status.busy op = true := by
      rw [hb, keepsDuty_true_iff]
      rcases haccess with ⟨off, n, v, rfl⟩ | ⟨off, n, rfl, hstatus⟩
      · simp
      · simpa using hstatus
    exact ⟨.hostDuty, (step_cons ho).trans (runHostOp_of_not_keepsDuty hduty)⟩
  · rintro rfl
    have hstep := (step_cons ho).trans (runHostOp_wait _)
    rw [waitOnce_eq] at hstep
    exact ⟨_, hstep, rfl, rfl⟩

end Sys2Proof.Machine
